-- ==== Sys2Proof/Word.lean ====
section
/-! DEFINITION. The machine's two word types (00_scope.md R7, R9): a register or a value is 32 bits, a stream byte is 8. -/
namespace Sys2Proof

/-- A byte of the output stream and of memory: a natural in 0..255 (00_scope.md R9). -/
abbrev Byte := BitVec 8

/-- A register, an IN_MEM value and the data of a bus access: REG_BITS = VALUE_BITS = 32 (00_scope.md R7). -/
abbrev Word := BitVec 32

end Sys2Proof
end

