-- ==== Sys2Proof/Syntax.lean ====
section
/-! DEFINITION. The rows of spec/opcode_table.json, one constructor each (30_encoding.md R91, R95). -/
namespace Sys2Proof

/-- The first nine rows are command words, the data of a host write to CTRL (30_encoding.md R90); they carry no operand
but SET_OP's OP field (R92). The last two are the blocks of the output stream (R95), with the operand their header
holds: `h >> 1` (log entry 6). -/
inductive Instr where
  /-- VARINT: START with OP = 0 (40_varint.md R114). -/
  | varint
  /-- RUN: START with OP = 1 (41_run.md R137). -/
  | run
  /-- BITPACK: START with OP = 2 (42_bitpack.md R161). -/
  | bitpack
  /-- HYBRID: START with OP = 3 (43_hybrid.md R191). -/
  | hybrid
  /-- RESERVED_OP4: START with OP = 4 (60_exceptions.md R212). -/
  | reservedOp4
  /-- RESERVED_OP5: START with OP = 5 (60_exceptions.md R212). -/
  | reservedOp5
  /-- RESERVED_OP6: START with OP = 6 (60_exceptions.md R212). -/
  | reservedOp6
  /-- RESERVED_OP7: START with OP = 7 (60_exceptions.md R212). -/
  | reservedOp7
  /-- SET_OP: a CTRL write with START = 0, which stores OP (30_encoding.md R93). -/
  | setOp (op : BitVec 3)
  /-- RUN_BLOCK: header `count << 1` (30_encoding.md R96). -/
  | runBlock (count : Nat)
  /-- LIT_BLOCK: header `(groups << 1) | 1` (30_encoding.md R97). -/
  | litBlock (groups : Nat)
  deriving DecidableEq, Repr

end Sys2Proof
end

