-- ==== Sys2Proof/WellFormed.lean ====
section
/-! DEFINITION. Which instructions the block can meet: the header operands the encoder produces. -/
namespace Sys2Proof

/-- A command word is always well-formed (30_encoding.md R90: ignored bits have no effect). A run block's count is at
least 1 (R101: `h = 0` is never emitted) and at most 2^32 - 1 (40_varint.md R116); a literal block has at least 1 group
(R101: `h = 1` is never emitted) and at most 2048 (R116). -/
def Instr.wellFormed : Instr → Bool
  | .varint => true
  | .run => true
  | .bitpack => true
  | .hybrid => true
  | .reservedOp4 => true
  | .reservedOp5 => true
  | .reservedOp6 => true
  | .reservedOp7 => true
  | .setOp _ => true
  | .runBlock c => decide (1 ≤ c) && decide (c ≤ 4294967295)
  | .litBlock g => decide (1 ≤ g) && decide (g ≤ 2048)

end Sys2Proof
end

