-- ==== Sys2Proof/Decode.lean ====
section
/-! DEFINITION. Decoding and encoding: command words (30_encoding.md R90, R91) and stream headers (R95, R98), with the
VarInt function both use (40_varint.md R110). -/
namespace Sys2Proof

/-! ### VarInt -/

/-- The loop of `VarInt(n)` (40_varint.md R110). `n & 0x7F` is `n % 128`, `n >> 7` is `n / 128` (00_scope.md R11), and
`b | 0x80` is `b + 128` for `b < 128`. The fuel is never used up: `n` strictly decreases until it is 0. -/
def varIntLoop : Nat → Nat → List Byte
  | 0, n => [BitVec.ofNat 8 (n % 128)]
  | fuel + 1, n =>
    if n / 128 = 0 then [BitVec.ofNat 8 (n % 128)]
    else BitVec.ofNat 8 (n % 128 + 128) :: varIntLoop fuel (n / 128)

/-- `VarInt(n)` (40_varint.md R110). -/
def varInt (n : Nat) : List Byte := varIntLoop n n

/-- Reads the VarInt at the front of a byte sequence (30_encoding.md R98): the integer and the bytes after it; `none` if
no byte has bit 7 clear. A redundant last group is read as the integer it spells (log entry 16). -/
def readVarInt : List Byte → Option (Nat × List Byte)
  | [] => none
  | b :: bs =>
    if b.toNat < 128 then some (b.toNat, bs)
    else
      match readVarInt bs with
      | none => none
      | some (n, rest) => some (b.toNat - 128 + 128 * n, rest)

/-! ### Bytes of a command word -/

/-- The little-endian word of four bytes (20_memory.md R66). -/
def wordOfBytes (b0 b1 b2 b3 : Byte) : Word := b3 ++ b2 ++ b1 ++ b0

/-- Byte `k` of a word, little-endian (20_memory.md R66). -/
def byteOfWord (w : Word) (k : Nat) : Byte := w.extractLsb' (8 * k) 8

/-- The four bytes of a word, the lowest first. -/
def bytesOfWord (w : Word) : List Byte := [byteOfWord w 0, byteOfWord w 1, byteOfWord w 2, byteOfWord w 3]

/-! ### Decoding -/

/-- The two spaces of encodings: the data of a CTRL write, and the elements of the output stream (30_encoding.md, head). -/
inductive Space where
  | command
  | stream
  deriving DecidableEq, Repr

/-- Why bytes are no instruction. -/
inductive DecodeError where
  /-- Fewer than the four bytes of a command word (30_encoding.md R90). -/
  | truncatedCommand
  /-- No byte of the header has bit 7 clear (30_encoding.md R99). -/
  | unterminatedHeader
  deriving DecidableEq, Repr

/-- The command word's instruction: START in bit 8, OP in bits [2:0], every other bit ignored (30_encoding.md R90, R91). -/
def decodeCommand (d : Word) : Instr :=
  let op : BitVec 3 := d.extractLsb' 0 3
  if d.getLsbD 8 then
    if op = 0 then .varint
    else if op = 1 then .run
    else if op = 2 then .bitpack
    else if op = 3 then .hybrid
    else if op = 4 then .reservedOp4
    else if op = 5 then .reservedOp5
    else if op = 6 then .reservedOp6
    else .reservedOp7
  else .setOp op

/-- The block a header integer `h` announces: kind `h & 1`, operand `h >> 1` (30_encoding.md R95). -/
def Instr.ofHeader (h : Nat) : Instr :=
  if h % 2 = 0 then .runBlock (h / 2) else .litBlock (h / 2)

/-- Decodes the instruction at the front of a byte sequence, total on any bytes; answers it with the bytes after it.
For a block these are its payload, whose length needs `bit_width` (30_encoding.md R99). -/
def decode (sp : Space) (bs : List Byte) : Except DecodeError (Instr × List Byte) :=
  match sp with
  | .command =>
    match bs with
    | b0 :: b1 :: b2 :: b3 :: rest => .ok (decodeCommand (wordOfBytes b0 b1 b2 b3), rest)
    | _ => .error .truncatedCommand
  | .stream =>
    match readVarInt bs with
    | none => .error .unterminatedHeader
    | some (h, rest) => .ok (Instr.ofHeader h, rest)

/-! ### Encoding -/

/-- The space an instruction is encoded in. -/
def Instr.space : Instr → Space
  | .runBlock _ => .stream
  | .litBlock _ => .stream
  | .varint => .command
  | .run => .command
  | .bitpack => .command
  | .hybrid => .command
  | .reservedOp4 => .command
  | .reservedOp5 => .command
  | .reservedOp6 => .command
  | .reservedOp7 => .command
  | .setOp _ => .command

/-- The command word of OP and START with every ignored bit 0 (30_encoding.md R90). -/
def commandWord (op : BitVec 3) (start : Bool) : Word := op.setWidth 32 ||| (if start then 0x100 else 0)

/-- The bytes of an instruction: a command word's four (30_encoding.md R90, R91), or a block's header (R96, R97). -/
def encode : Instr → List Byte
  | .varint => bytesOfWord (commandWord 0 true)
  | .run => bytesOfWord (commandWord 1 true)
  | .bitpack => bytesOfWord (commandWord 2 true)
  | .hybrid => bytesOfWord (commandWord 3 true)
  | .reservedOp4 => bytesOfWord (commandWord 4 true)
  | .reservedOp5 => bytesOfWord (commandWord 5 true)
  | .reservedOp6 => bytesOfWord (commandWord 6 true)
  | .reservedOp7 => bytesOfWord (commandWord 7 true)
  | .setOp op => bytesOfWord (commandWord op false)
  | .runBlock c => varInt (2 * c)
  | .litBlock g => varInt (2 * g + 1)

/-- The instruction of an opcode-table row's bits `w`. A row of at most 8 bits is a stream element, known by its header's
first byte and followed by zero bytes; a wider row is a command word (log entry 7). -/
def decodeTableWord (nbits w : Nat) : Option Instr :=
  if nbits ≤ 8 then
    match decode .stream [BitVec.ofNat 8 w, 0, 0, 0, 0] with
    | .ok (i, _) => some i
    | .error _ => none
  else if nbits ≤ 32 then
    match decode .command (bytesOfWord (BitVec.ofNat 32 w)) with
    | .ok (i, _) => some i
    | .error _ => none
  else none

end Sys2Proof
end

