-- ==== Sys2Proof/Config.lean ====
section
/-! DEFINITION. What the spec fixes or leaves OPEN per implementation (00_scope.md R7), and the free values `Draw` (R14). -/
namespace Sys2Proof

/-- Free; `Config.nMax` ranges over every legal N_MAX as this ranges over the naturals (log entry 1). -/
opaque Config.nMaxSeed : Nat

/-- Free; `Config.outMax` ranges over every legal OUT_MAX as this ranges over the naturals (log entry 1). -/
opaque Config.outMaxSeed : Nat

/-- N_MAX, capacity of IN_MEM in values. OPEN, 1 <= N_MAX <= 16384 (00_scope.md R7). -/
def Config.nMax : Nat := 1 + Config.nMaxSeed % 16384

/-- OUT_MAX, capacity of OUT_MEM in bytes. OPEN, a multiple of 4, 16 <= OUT_MAX <= 65536 (00_scope.md R7). -/
def Config.outMax : Nat := 16 + 4 * (Config.outMaxSeed % 16381)

/-- BASE, where the window sits in a system address map. OPEN; no rule reads it (20_memory.md R60, log entry 19). -/
opaque Config.base : Nat

/-- BW_MAX, the largest legal bit width (00_scope.md R7). -/
abbrev Config.bwMax : Nat := 32

/-- RLE_THRESHOLD, the shortest run that becomes a repeated-run block (00_scope.md R7). -/
abbrev Config.rleThreshold : Nat := 8

/-- GROUP, the number of values in one literal group (00_scope.md R7). -/
abbrev Config.group : Nat := 8

/-- The `n`-th byte of `Draw`: a value the spec leaves unspecified, under no law (00_scope.md R14, log entry 2). -/
opaque Config.freeByte : Nat → BitVec 8

/-- BitPack of an empty sequence, which 42_bitpack.md R152 leaves undefined: any bytes, any length (log entry 8). -/
opaque Config.freeBlock : Nat → List (BitVec 8)

end Sys2Proof
end

