-- ==== Sys2Proof/Machine/Encoders.lean ====
section
/-! DEFINITION. The pure encoding functions RunEnc, BitPack and Hybrid (00_scope.md R15), on naturals and exact (R8).
A function that may contain `Draw` bytes takes `k`, the index of the first free value it may use (log entry 15). -/
namespace Sys2Proof.Machine

/-- `ceil_div(a, b)` (00_scope.md R11). -/
def ceilDiv (a b : Nat) : Nat := (a + b - 1) / b

/-- `LE_n(v)` (00_scope.md R13). -/
def leBytes : Nat → Nat → List Byte
  | 0, _ => []
  | n + 1, v => BitVec.ofNat 8 (v % 256) :: leBytes n (v / 256)

/-- `Draw(n)`: `n` free bytes, those of index `k` on (00_scope.md R14). -/
def drawBytes (k n : Nat) : List Byte := (List.range n).map (fun t => Config.freeByte (k + t))

/-! ### RunEnc -/

/-- `RunEnc(v, c, bw)` (41_run.md R130). -/
def runEnc (k v c bw : Nat) : List Byte :=
  if c = 0 then []
  else
    let hdr := varInt (2 * c)
    let nb := ceilDiv bw 8
    if nb = 0 then hdr
    else if v < 2 ^ (8 * nb) then hdr ++ leBytes nb v
    else hdr ++ drawBytes k nb

/-! ### BitPack -/

/-- The bit accumulator `(acc, nbits)` (10_state.md R36, 42_bitpack.md R153). -/
structure BitAcc where
  acc : Nat
  nbits : Nat
  deriving DecidableEq, Repr

/-- The inner loop of `Pack` (42_bitpack.md R153): emits bytes while 8 bits are held. Fuel `a.nbits` is enough. -/
def drainBits : Nat → BitAcc → List Byte × BitAcc
  | 0, a => ([], a)
  | fuel + 1, a =>
    if 8 ≤ a.nbits then
      let r := drainBits fuel { acc := a.acc / 256, nbits := a.nbits - 8 }
      (BitVec.ofNat 8 (a.acc % 256) :: r.1, r.2)
    else ([], a)

/-- One iteration of `Pack`'s outer loop: OR the value in at the current offset, advance it, emit whole bytes (R153). -/
def packValue (bw v : Nat) (a : BitAcc) : List Byte × BitAcc :=
  drainBits (a.nbits + bw) { acc := a.acc ||| (v <<< a.nbits), nbits := a.nbits + bw }

/-- `Flush`: one more byte if bits remain (42_bitpack.md R154). -/
def flushBits (a : BitAcc) : List Byte :=
  if 0 < a.nbits then [BitVec.ofNat 8 (a.acc % 256)] else []

/-- The outer loop of `Pack` from an accumulator (42_bitpack.md R153). -/
def packLoop (bw : Nat) : List Nat → BitAcc → List Byte
  | [], a => flushBits a
  | v :: vs, a => (packValue bw v a).1 ++ packLoop bw vs (packValue bw v a).2

/-- `Pack(ls, bw)`, from the accumulator `(0, 0)` (42_bitpack.md R153). -/
def pack (ls : List Nat) (bw : Nat) : List Byte := packLoop bw ls { acc := 0, nbits := 0 }

/-- `Pad(p, req)` (42_bitpack.md R155). -/
def padTo (p : List Byte) (req : Nat) : List Byte := p ++ List.replicate (req - p.length) 0

/-- The number of groups of `ls` (42_bitpack.md R151). -/
def numGroups (len : Nat) : Nat := ceilDiv len Config.group

/-- `BitPack(ls, bw)` (42_bitpack.md R150). The spec does not define it on `[]` (R152): there the bytes are free. -/
def bitPack (k : Nat) (ls : List Nat) (bw : Nat) : List Byte :=
  if ls = [] then Config.freeBlock k
  else
    let g := numGroups ls.length
    let hdr := varInt (2 * g + 1)
    if ls.any (fun v => decide (2 ^ bw ≤ v)) then hdr ++ drawBytes k (g * bw)
    else hdr ++ padTo (pack ls bw) (g * bw)

/-! ### Hybrid -/

/-- `runlen(vs, i)` (43_hybrid.md R180); 0 past the end, where the rule does not define it. -/
def runlen (vs : List Nat) (i : Nat) : Nat :=
  match vs.drop i with
  | [] => 0
  | v :: rest => 1 + (rest.takeWhile (fun x => x == v)).length

/-- `vs[i..j)` (00_scope.md R12). -/
def slice (vs : List Nat) (i j : Nat) : List Nat := (vs.drop i).take (j - i)

/-- `vs[i]` (00_scope.md R12); 0 past the end. -/
def valueAt (vs : List Nat) (i : Nat) : Nat := vs.getD i 0

/-- The loop that extends a literal span from `j` (43_hybrid.md R181, step 3). Fuel `len(vs)` is enough. -/
def spanEnd (vs : List Nat) : Nat → Nat → Nat
  | 0, j => j
  | fuel + 1, j =>
    if j < vs.length ∧ runlen vs j < Config.rleThreshold then spanEnd vs fuel (j + runlen vs j) else j

/-- The outer loop of `Hybrid` at cursor `i` with `out` built (43_hybrid.md R181). Fuel `len(vs)` is enough. -/
def hybridLoop (k : Nat) (vs : List Nat) (bw : Nat) : Nat → Nat → List Byte → List Byte
  | 0, _, out => out
  | fuel + 1, i, out =>
    if i < vs.length then
      if Config.rleThreshold ≤ runlen vs i then
        hybridLoop k vs bw fuel (i + runlen vs i)
          (out ++ runEnc (k + out.length) (valueAt vs i) (runlen vs i) bw)
      else
        hybridLoop k vs bw fuel (spanEnd vs vs.length i)
          (out ++ bitPack (k + out.length) (slice vs i (spanEnd vs vs.length i)) bw)
    else out

/-- `Hybrid(vs, bw)` (43_hybrid.md R181). -/
def hybrid (k : Nat) (vs : List Nat) (bw : Nat) : List Byte := hybridLoop k vs bw vs.length 0 []

end Sys2Proof.Machine
end

