-- ==== Sys2Proof/Machine/State.lean ====
section
/-! DEFINITION. The machine's state as plain data, the reasons a step can stop, and the state after reset
(10_state.md, 70_reset_and_hazards.md R240). -/
namespace Sys2Proof.Machine

/-- The four commands (30_encoding.md R91). -/
inductive Command where
  | varint
  | run
  | bitpack
  | hybrid
  deriving DecidableEq, Repr

/-- The outcome codes of STATUS.ERR (60_exceptions.md R211); codes 6 to 15 are never produced. -/
inductive Err where
  | ok
  | badOp
  | badBw
  | badLen
  | emptyLiterals
  | outOverflow
  deriving DecidableEq, Repr

/-- The nine registers (10_state.md R21). -/
inductive Reg where
  | ctrl
  | status
  | bitWidth
  | inLen
  | arg
  | count
  | outLen
  | capIn
  | capOut
  deriving DecidableEq, Repr

/-- The dispatcher's states (43_hybrid.md R186). VARINT, RUN and BITPACK go from `scanningRun` to `done` at once. -/
inductive Scan where
  | scanningRun
  | scanningLiteralSpan
  | done
  deriving DecidableEq, Repr

/-- The snapshot `S` taken at a START that passes validation (10_state.md R35). `input` is `in`, with a free word in the
place of an unwritten one; `unwritten` says whether there is such a place (R42, log entry 10). -/
structure Snapshot where
  cmd : Command
  bw : Word
  n : Word
  arg : Word
  count : Word
  input : List Word
  unwritten : Bool
  deriving DecidableEq, Repr

/-- The engine's working state (10_state.md R36): the dispatcher's state, the cursor `i`, the span end `j`, and the output
built so far. The bit accumulator is local to packing one block (42_bitpack.md R153, log entry 5). -/
structure Work where
  scan : Scan
  i : Nat
  j : Nat
  out : List Byte
  deriving DecidableEq, Repr

/-- The engine's phase (10_state.md R34): STATUS.BUSY is 1 exactly in `busy`. -/
inductive Phase where
  | idle
  | busy (snap : Snapshot) (work : Work)
  deriving DecidableEq, Repr

/-- The reasons of the model's fault set (60_exceptions.md R216). -/
inductive FaultReason where
  | busMisaligned
  | busUnmapped
  | unwrittenInput
  deriving DecidableEq, Repr

/-- The fault set (10_state.md R38), one flag per reason, so that equal sets are equal data. -/
structure FaultSet where
  busMisaligned : Bool
  busUnmapped : Bool
  unwrittenInput : Bool
  deriving DecidableEq, Repr

/-- What can happen next (10_state.md R39, 70_reset_and_hazards.md R240). A bus access names its width in bytes. -/
inductive Event where
  /-- HostRead(addr). -/
  | hostRead (bytes addr : Nat)
  /-- HostWrite(addr, data). -/
  | hostWrite (bytes addr : Nat) (data : Word)
  /-- One transition of the engine's working state, which no host access sees (10_state.md R36, log entry 5). -/
  | work
  /-- Complete(draws) (10_state.md R42). -/
  | complete
  /-- The external reset input (70_reset_and_hazards.md R240). -/
  | reset
  /-- The host's WAIT loop (30_encoding.md R103). Of a BUSY block it makes `polls` reads of STATUS before the completion
  step, which R40 promises, is taken (log entry 23). -/
  | wait (polls : Nat)
  deriving DecidableEq, Repr

/-- IN_MEM and OUT_MEM at their addresses in the window (20_memory.md R62, R63), strictly rising; an address that is not
listed is unwritten (10_state.md R33, log entry 12). -/
abbrev Memory := List Host.Cell

/-- The whole state. The last three fields are the model's own (log entries 2, 3, 9). -/
structure State where
  /-- CTRL.OP (10_state.md R22). -/
  op : BitVec 3
  /-- BIT_WIDTH (10_state.md R24). -/
  bitWidth : Word
  /-- IN_LEN (10_state.md R25). -/
  inLen : Word
  /-- ARG (10_state.md R26). -/
  arg : Word
  /-- COUNT (10_state.md R27). -/
  count : Word
  /-- OUT_LEN (10_state.md R28). -/
  outLen : Word
  /-- CAP_IN, which holds N_MAX (10_state.md R29). -/
  capIn : Word
  /-- CAP_OUT, which holds OUT_MAX (10_state.md R30). -/
  capOut : Word
  /-- STATUS.DONE (10_state.md R23). -/
  done : Bool
  /-- STATUS.ERR (10_state.md R23). -/
  err : Err
  /-- The engine's phase, STATUS.BUSY (10_state.md R34), with the snapshot (R35) and working state (R36). -/
  phase : Phase
  /-- IN_MEM and OUT_MEM (10_state.md R31, R32). -/
  mem : Memory
  /-- The model's fault set (10_state.md R38). -/
  faults : FaultSet
  /-- The free values used so far (log entry 2). -/
  draws : Nat
  /-- What the last host read returned (log entry 9). -/
  reply : Option Word
  /-- The events still to happen, the next first (log entry 3). -/
  pending : List Event
  deriving DecidableEq, Repr

/-- Why the machine stops. No event of the hardware stops it (60_exceptions.md R210). -/
inductive Fault where
  /-- Raised by `execRunBlock`, `execLitBlock`, `engineWork` and `complete`: the event names a step that is not enabled
  (10_state.md R39: completion only while BUSY; 43_hybrid.md R186: a block only where the dispatcher emits it). Safe. -/
  | notEnabled
  deriving DecidableEq, Repr

/-- Why an instruction has no meaning. -/
inductive Refusal where
  /-- Raised by no instruction of this model: every row of the table has its meaning. Safe. -/
  | notModelled (mnemonic : String)
  deriving DecidableEq, Repr

/-- The empty fault set (10_state.md R38). -/
def FaultSet.none : FaultSet := { busMisaligned := false, busUnmapped := false, unwrittenInput := false }

/-- The block with capacities N_MAX and OUT_MAX right after reset (70_reset_and_hazards.md R240). -/
def State.resetWith (capIn capOut : Word) : State where
  op := 0
  bitWidth := 0
  inLen := 0
  arg := 0
  count := 0
  outLen := 0
  capIn := capIn
  capOut := capOut
  done := false
  err := .ok
  phase := .idle
  mem := []
  faults := FaultSet.none
  draws := 0
  reply := none
  pending := []

/-- The machine right after reset (70_reset_and_hazards.md R240), with nothing yet asked of it. -/
def State.reset : State := State.resetWith (BitVec.ofNat 32 Config.nMax) (BitVec.ofNat 32 Config.outMax)

end Sys2Proof.Machine
end

