-- ==== Sys2Proof/Machine/Ops.lean ====
section
/-! DEFINITION. The named operations over memory, registers and the state. There are no traps (60_exceptions.md R210,
R219): the one shared operation that reports an error is `State.report` (R213). -/
namespace Sys2Proof.Machine

/-! ### Memory -/

/-- The byte at an address, `none` where it is unwritten (10_state.md R33). -/
def Memory.read : Memory → Nat → Option Byte
  | [], _ => none
  | c :: m, a => if c.1 = a then some c.2 else Memory.read m a

/-- Writes one byte, keeping the addresses strictly rising. -/
def Memory.write : Memory → Nat → Byte → Memory
  | [], a, b => [(a, b)]
  | c :: m, a, b =>
    if a < c.1 then (a, b) :: c :: m
    else if a = c.1 then (a, b) :: m
    else c :: Memory.write m a b

/-- Writes a byte sequence from an address on. -/
def Memory.writeBytes : Memory → Nat → List Byte → Memory
  | m, _, [] => m
  | m, a, b :: bs => Memory.writeBytes (Memory.write m a b) (a + 1) bs

/-- The canonical form: addresses strictly rising. An unlisted address holds no value, so no entry can equal it. -/
abbrev Memory.wf (m : Memory) : Prop := List.Pairwise (fun x y => x.1 < y.1) m

/-- Where word `IN[k]` lies in the window (20_memory.md R62). -/
def inAddr (k : Nat) : Nat := 0x10000 + 4 * k

/-- Where byte `OUT[j]` lies in the window (20_memory.md R63, R66). -/
def outAddr (j : Nat) : Nat := 0x20000 + j

/-- One byte of a `Draw` for an unwritten byte: the free byte of index `k` unless the byte is written (10_state.md R33). -/
def byteAt (m : Memory) (a k : Nat) : Byte := (m.read a).getD (Config.freeByte k)

/-- The little-endian word at `a`, unwritten bytes drawn from index `k` on (20_memory.md R66, 10_state.md R33). -/
def wordAt (m : Memory) (a k : Nat) : Word :=
  wordOfBytes (byteAt m a k) (byteAt m (a + 1) (k + 1)) (byteAt m (a + 2) (k + 2)) (byteAt m (a + 3) (k + 3))

/-- `Draw(4)` as a little-endian word (10_state.md R28). -/
def drawWord (k : Nat) : Word :=
  wordOfBytes (Config.freeByte k) (Config.freeByte (k + 1)) (Config.freeByte (k + 2)) (Config.freeByte (k + 3))

/-- Word `IN[k]`, `none` while it is unwritten (10_state.md R31, R33). -/
def inWord (m : Memory) (k : Nat) : Option Word :=
  match m.read (inAddr k), m.read (inAddr k + 1), m.read (inAddr k + 2), m.read (inAddr k + 3) with
  | some b0, some b1, some b2, some b3 => some (wordOfBytes b0 b1 b2 b3)
  | _, _, _, _ => none

/-! ### Registers and commands -/

/-- A register's offset (10_state.md R21). -/
def Reg.offset : Reg → Nat
  | .ctrl => 0x00
  | .status => 0x04
  | .bitWidth => 0x08
  | .inLen => 0x0C
  | .arg => 0x10
  | .count => 0x14
  | .outLen => 0x18
  | .capIn => 0x1C
  | .capOut => 0x20

/-- The command of an OP value below 4 (30_encoding.md R91). -/
def commandOf (op : BitVec 3) : Command :=
  if op = 0 then .varint else if op = 1 then .run else if op = 2 then .bitpack else .hybrid

/-- The code of STATUS.ERR (60_exceptions.md R211). -/
def Err.code : Err → BitVec 4
  | .ok => 0
  | .badOp => 1
  | .badBw => 2
  | .badLen => 3
  | .emptyLiterals => 4
  | .outOverflow => 5

/-- STATUS.BUSY (10_state.md R34). -/
def Phase.isBusy : Phase → Bool
  | .idle => false
  | .busy _ _ => true

/-- STATUS.BUSY (10_state.md R23, R34). -/
def State.busy (s : State) : Bool := s.phase.isBusy

/-- The regions of the window (20_memory.md R61, R62, R63, R65). -/
inductive Place where
  | reg (r : Reg)
  | inMem
  | outMem
  | unmapped
  deriving DecidableEq, Repr

/-- The register at an aligned offset below 0x24 (10_state.md R21). -/
def regAt (addr : Nat) : Reg :=
  if addr = 0x00 then .ctrl
  else if addr = 0x04 then .status
  else if addr = 0x08 then .bitWidth
  else if addr = 0x0C then .inLen
  else if addr = 0x10 then .arg
  else if addr = 0x14 then .count
  else if addr = 0x18 then .outLen
  else if addr = 0x1C then .capIn
  else .capOut

/-- What lies at an aligned address (20_memory.md R61, R62, R63, R65). -/
def locate (s : State) (addr : Nat) : Place :=
  if addr < 0x24 then .reg (regAt addr)
  else if 0x10000 ≤ addr ∧ addr < 0x10000 + 4 * s.capIn.toNat then .inMem
  else if 0x20000 ≤ addr ∧ addr < 0x20000 + s.capOut.toNat then .outMem
  else .unmapped

/-! ### Named updates of the state -/

/-- Adds a reason to the fault set (10_state.md R38). -/
def FaultSet.add (r : FaultReason) (f : FaultSet) : FaultSet :=
  match r with
  | .busMisaligned => { f with busMisaligned := true }
  | .busUnmapped => { f with busUnmapped := true }
  | .unwrittenInput => { f with unwrittenInput := true }

/-- Whether a reason is in the fault set. -/
def FaultSet.has (r : FaultReason) (f : FaultSet) : Bool :=
  match r with
  | .busMisaligned => f.busMisaligned
  | .busUnmapped => f.busUnmapped
  | .unwrittenInput => f.unwrittenInput

/-- `Fault(REASON)` (00_scope.md R14). -/
def State.recordFault (r : FaultReason) (s : State) : State := { s with faults := s.faults.add r }

/-- A host read returns `v`, having used `used` free values. -/
def State.answer (v : Word) (used : Nat) (s : State) : State :=
  { s with reply := some v, draws := s.draws + used }

/-- `x[CTRL].OP <- op` (30_encoding.md R93). -/
def State.storeOp (op : BitVec 3) (s : State) : State := { s with op := op }

/-- `x[BIT_WIDTH] <- v` (10_state.md R24). -/
def State.setBitWidth (v : Word) (s : State) : State := { s with bitWidth := v }

/-- `x[IN_LEN] <- v` (10_state.md R25). -/
def State.setInLen (v : Word) (s : State) : State := { s with inLen := v }

/-- `x[ARG] <- v` (10_state.md R26). -/
def State.setArg (v : Word) (s : State) : State := { s with arg := v }

/-- `x[COUNT] <- v` (10_state.md R27). -/
def State.setCount (v : Word) (s : State) : State := { s with count := v }

/-- Stores a word at an address of IN_MEM (20_memory.md R62). -/
def State.storeWord (addr : Nat) (v : Word) (s : State) : State :=
  { s with mem := Memory.writeBytes s.mem addr (bytesOfWord v) }

/-- A START that fails validation with `code`: its whole effect (60_exceptions.md R213). -/
def State.report (op : BitVec 3) (code : Err) (s : State) : State :=
  { s with op := op, done := true, err := code, outLen := 0 }

/-- The working state at START (10_state.md R36): all of it fresh. R36 and 43_hybrid.md R186 give the initial state as
SCANNING_RUN with `i = 0` and say nothing of `j` before a span is opened: `j := 0` is the model's choice (log entry 22). -/
def Work.fresh : Work := { scan := .scanningRun, i := 0, j := 0, out := [] }

/-- A START that passes validation with snapshot `S`, `used` free values standing for unwritten words (30_encoding.md R93). -/
def State.launch (op : BitVec 3) (S : Snapshot) (used : Nat) (s : State) : State :=
  { s with op := op, done := false, err := .ok, phase := .busy S Work.fresh, draws := s.draws + used }

/-- The engine's working state becomes `w` (10_state.md R36), `draws` free values used. -/
def State.withWork (S : Snapshot) (w : Work) (draws : Nat) (s : State) : State :=
  { s with phase := .busy S w, draws := draws }

/-- The code a completion reports for a result of `len` bytes where OUT_MEM holds `cap` (60_exceptions.md R214). -/
def completionErr (len cap : Nat) : Err := if cap < len then .outOverflow else .ok

/-- The fault set after a completion (10_state.md R42). -/
def FaultSet.afterCompletion (unwritten : Bool) (f : FaultSet) : FaultSet :=
  match unwritten with
  | true => f.add .unwrittenInput
  | false => f

/-- The completion step's writes for the result `e` (10_state.md R42, 60_exceptions.md R214): the first OUT_MAX bytes,
OUT_LEN, STATUS, the fault of an unwritten input, and the snapshot discarded. -/
def State.commit (e : List Byte) (unwritten : Bool) (draws : Nat) (s : State) : State :=
  { s with
    mem := Memory.writeBytes s.mem (outAddr 0) (e.take s.capOut.toNat)
    outLen := BitVec.ofNat 32 (min e.length s.capOut.toNat)
    phase := .idle
    done := true
    err := completionErr e.length s.capOut.toNat
    faults := s.faults.afterCompletion unwritten
    draws := draws }

/-- The events still to happen are `rest` (log entry 3). -/
def State.withPending (rest : List Event) (s : State) : State := { s with pending := rest }

/-- The reset input (70_reset_and_hazards.md R240): every part of the block at its reset value. What the host holds (its
pending accesses, what it read) and the free values used stay (log entries 2, 3, 9). -/
def State.toReset (s : State) : State :=
  { State.resetWith s.capIn s.capOut with draws := s.draws, reply := s.reply, pending := s.pending }

end Sys2Proof.Machine
end

