-- ==== Sys2Proof/Machine/Operands.lean ====
section
/-! DEFINITION. Operand assembly (30_encoding.md R92): a command's operands come from the registers and IN_MEM, through the
snapshot taken at START (10_state.md R35). -/
namespace Sys2Proof.Machine

/-- How many IN_MEM words a command reads (10_state.md R35). -/
def inputCount (cmd : Command) (s : State) : Nat :=
  match cmd with
  | .varint => 0
  | .run => 0
  | .bitpack => s.inLen.toNat
  | .hybrid => s.inLen.toNat

/-- Word `IN[t]` as the engine reads it: a free word where it is unwritten (10_state.md R33, R42). -/
def engineWord (s : State) (t : Nat) : Word := (inWord s.mem t).getD (drawWord (s.draws + 4 * t))

/-- The snapshot of a command (10_state.md R35). -/
def snapshot (cmd : Command) (s : State) : Snapshot where
  cmd := cmd
  bw := s.bitWidth
  n := s.inLen
  arg := s.arg
  count := s.count
  input := (List.range (inputCount cmd s)).map (engineWord s)
  unwritten := (List.range (inputCount cmd s)).any (fun t => (inWord s.mem t).isNone)

/-- The snapshot's input values as naturals (30_encoding.md R92: zero-extended). -/
def Snapshot.values (S : Snapshot) : List Nat := S.input.map (fun w => w.toNat)

end Sys2Proof.Machine
end

