-- ==== Sys2Proof/Machine/Engine.lean ====
section
/-! DEFINITION. The engine's working state and its transitions (10_state.md R36, 43_hybrid.md R186), run to the end by the
completion step (10_state.md R42), and the result `E(S)` as the rules of the four functions give it (R41). -/
namespace Sys2Proof.Machine

/-- What the engine does next. -/
inductive Act where
  /-- VARINT's whole output, a bare VarInt with no block structure (30_encoding.md R94). -/
  | emitInt
  /-- Emit the block of header integer `h` (30_encoding.md R95): RunEnc or BitPack. -/
  | emitBlock (h : Nat)
  /-- SCANNING_RUN to SCANNING_LITERAL_SPAN, `j <- i` (43_hybrid.md R186). -/
  | openSpan
  /-- `j <- j + runlen(vs, j)` (43_hybrid.md R186). -/
  | extendSpan
  /-- SCANNING_RUN at `i = n` to DONE (43_hybrid.md R186). -/
  | stop
  /-- DONE has no transitions (43_hybrid.md R186). -/
  | none
  deriving DecidableEq, Repr

/-- The header integer of a run block of count `c` (30_encoding.md R96). -/
def runHeader (c : Nat) : Nat := 2 * c

/-- The header integer of a literal block of `g` groups (30_encoding.md R97). -/
def litHeader (g : Nat) : Nat := 2 * g + 1

/-- The engine's next transition. For HYBRID the rows of 43_hybrid.md R186; RUN and BITPACK emit their one block
(41_run.md R137, 42_bitpack.md R161), VARINT its integer (40_varint.md R114). -/
def nextAct (S : Snapshot) (w : Work) : Act :=
  match w.scan with
  | .done => .none
  | .scanningRun =>
    match S.cmd with
    | .varint => .emitInt
    | .run => .emitBlock (runHeader S.count.toNat)
    | .bitpack => .emitBlock (litHeader (numGroups S.values.length))
    | .hybrid =>
      if w.i < S.values.length then
        if Config.rleThreshold ≤ runlen S.values w.i then .emitBlock (runHeader (runlen S.values w.i)) else .openSpan
      else .stop
  | .scanningLiteralSpan =>
    match S.cmd with
    | .varint => .none
    | .run => .none
    | .bitpack => .none
    | .hybrid =>
      if w.j < S.values.length ∧ runlen S.values w.j < Config.rleThreshold then .extendSpan
      else .emitBlock (litHeader (numGroups (slice S.values w.i w.j).length))

/-- The value a run block holds: ARG for RUN, `vs[i]` for HYBRID (41_run.md R137, 43_hybrid.md R181). -/
def runValue (S : Snapshot) (w : Work) : Nat :=
  match S.cmd with
  | .varint => S.arg.toNat
  | .run => S.arg.toNat
  | .bitpack => S.arg.toNat
  | .hybrid => valueAt S.values w.i

/-- The literals of a literal block: `in` for BITPACK, `vs[i..j)` for HYBRID (42_bitpack.md R161, 43_hybrid.md R181). -/
def litValues (S : Snapshot) (w : Work) : List Nat :=
  match S.cmd with
  | .varint => S.values
  | .run => S.values
  | .bitpack => S.values
  | .hybrid => slice S.values w.i w.j

/-- The dispatcher's state after a block: SCANNING_RUN for HYBRID (43_hybrid.md R186), the end for the others. -/
def scanAfterBlock (cmd : Command) : Scan :=
  match cmd with
  | .varint => .done
  | .run => .done
  | .bitpack => .done
  | .hybrid => .scanningRun

/-- The cursor after a block: HYBRID's moves, the other commands have none (10_state.md R36). -/
def cursorAfter (cmd : Command) (old new : Nat) : Nat :=
  match cmd with
  | .varint => old
  | .run => old
  | .bitpack => old
  | .hybrid => new

/-- Emits a run block of count `c`, free values from `k` on, and moves the cursor past the run (43_hybrid.md R182). -/
def emitRun (S : Snapshot) (c : Nat) (w : Work) (k : Nat) : Work :=
  { w with
    out := w.out ++ runEnc k (runValue S w) c S.bw.toNat
    i := cursorAfter S.cmd w.i (w.i + c)
    scan := scanAfterBlock S.cmd }

/-- Emits the literal block of the span, free values from `k` on, and moves the cursor to its end (43_hybrid.md R183). -/
def emitLit (S : Snapshot) (w : Work) (k : Nat) : Work :=
  { w with
    out := w.out ++ bitPack k (litValues S w) S.bw.toNat
    i := cursorAfter S.cmd w.i w.j
    scan := scanAfterBlock S.cmd }

/-- The working state after a transition (43_hybrid.md R186). -/
def doAct (S : Snapshot) (a : Act) (w : Work) (k : Nat) : Work :=
  match a with
  | .emitInt => { w with out := w.out ++ varInt S.arg.toNat, scan := .done }
  | .emitBlock h => if h % 2 = 0 then emitRun S (h / 2) w k else emitLit S w k
  | .openSpan => { w with j := w.i, scan := .scanningLiteralSpan }
  | .extendSpan => { w with j := w.j + runlen S.values w.j }
  | .stop => { w with scan := .done }
  | .none => w

/-- The next free value's index after the output grew from `w` to `w'` (log entry 15). -/
def drawsAfter (k : Nat) (w w' : Work) : Nat := k + (w'.out.length - w.out.length)

/-- Runs the engine's remaining transitions; answers the working state and the next free value's index. -/
def runEngine (S : Snapshot) : Nat → Work → Nat → Work × Nat
  | 0, w, k => (w, k)
  | fuel + 1, w, k =>
    match nextAct S w with
    | .none => (w, k)
    | a => runEngine S fuel (doAct S a w k) (drawsAfter k w (doAct S a w k))

/-- Enough fuel for any working state: each value is passed by at most three transitions (43_hybrid.md R193). -/
def engineFuel (S : Snapshot) : Nat := 3 * S.values.length + 3

/-- `E(S)` (10_state.md R41), free values from index `k` on: VARINT R114, RUN R137, BITPACK R161, HYBRID R191. -/
def result (S : Snapshot) (k : Nat) : List Byte :=
  match S.cmd with
  | .varint => varInt S.arg.toNat
  | .run => runEnc k S.arg.toNat S.count.toNat S.bw.toNat
  | .bitpack => bitPack k S.values S.bw.toNat
  | .hybrid => hybrid k S.values S.bw.toNat

end Sys2Proof.Machine
end

