-- ==== Sys2Proof/Machine/Blocks.lean ====
section
/-! DEFINITION. The stream blocks' meanings: the engine's action that emits the block (43_hybrid.md R186, 30_encoding.md
R96, R97, log entry 6). It is enabled where the engine's next transition emits a block with that header. -/
namespace Sys2Proof.Machine

/-- RUN_BLOCK of count `c`: appends `RunEnc(v, c, bw)` to the output built so far (41_run.md R130). -/
def execRunBlock (c : Nat) (s : State) : Host.Outcome State Fault Refusal :=
  match s.phase with
  | .idle => .fault .notEnabled
  | .busy S w =>
    if nextAct S w = .emitBlock (runHeader c) then
      .next (s.withWork S (emitRun S c w s.draws) (drawsAfter s.draws w (emitRun S c w s.draws)))
    else .fault .notEnabled

/-- LIT_BLOCK of `g` groups: appends `BitPack(ls, bw)` of the span's literals `ls` to the output built so far
(42_bitpack.md R150). -/
def execLitBlock (g : Nat) (s : State) : Host.Outcome State Fault Refusal :=
  match s.phase with
  | .idle => .fault .notEnabled
  | .busy S w =>
    if nextAct S w = .emitBlock (litHeader g) then
      .next (s.withWork S (emitLit S w s.draws) (drawsAfter s.draws w (emitLit S w s.draws)))
    else .fault .notEnabled

end Sys2Proof.Machine
end

