-- ==== Sys2Proof/Machine/Flags.lean ====
section
/-! DEFINITION. STATUS and the code a START reports (10_state.md R23, 60_exceptions.md R212). The block has no other flags. -/
namespace Sys2Proof.Machine

/-- A Bool as a bit. -/
def bitOf (b : Bool) : Nat := if b then 1 else 0

/-- STATUS as read: BUSY in bit 0, DONE in bit 1, ERR in bits [7:4], every other bit 0 (10_state.md R23). -/
def statusWord (s : State) : Word :=
  BitVec.ofNat 32 (bitOf s.busy + 2 * bitOf s.done + 16 * s.err.code.toNat)

/-- `Validate(op)` for the values of BIT_WIDTH, IN_LEN and CAP_IN, the first check that fails wins (60_exceptions.md R212). -/
def validateOperands (op : BitVec 3) (bw len cap : Nat) : Err :=
  if 4 ≤ op.toNat then .badOp
  else if (op = 1 ∨ op = 2 ∨ op = 3) ∧ Config.bwMax < bw then .badBw
  else if (op = 2 ∨ op = 3) ∧ cap < len then .badLen
  else if op = 2 ∧ len = 0 then .emptyLiterals
  else .ok

/-- `Validate(op)` over the live registers (60_exceptions.md R212). -/
def validate (op : BitVec 3) (s : State) : Err :=
  validateOperands op s.bitWidth.toNat s.inLen.toNat s.capIn.toNat

end Sys2Proof.Machine
end

