-- ==== Sys2Proof/Machine/Commands.lean ====
section
/-! DEFINITION. The command words' meanings: the effect of a CTRL write (30_encoding.md R93). A command that starts is
finished by the completion step (10_state.md R42), which Machine/Agents.lean gives. -/
namespace Sys2Proof.Machine

/-- A CTRL write with START = 1 (30_encoding.md R93), as one step: ignored while BUSY (20_memory.md R69); else OP is
stored, and either the validation error is reported (60_exceptions.md R213) or the snapshot is taken and BUSY set. -/
def start (op : BitVec 3) (s : State) : State :=
  if s.busy then s
  else if validate op s = .ok then
    s.launch op (snapshot (commandOf op) s) (4 * inputCount (commandOf op) s)
  else s.report op (validate op s)

/-- VARINT: START with OP = 0 (40_varint.md R114). -/
def execVarint (s : State) : Host.Outcome State Fault Refusal := .next (start 0 s)

/-- RUN: START with OP = 1 (41_run.md R137). -/
def execRun (s : State) : Host.Outcome State Fault Refusal := .next (start 1 s)

/-- BITPACK: START with OP = 2 (42_bitpack.md R161). -/
def execBitpack (s : State) : Host.Outcome State Fault Refusal := .next (start 2 s)

/-- HYBRID: START with OP = 3 (43_hybrid.md R191). -/
def execHybrid (s : State) : Host.Outcome State Fault Refusal := .next (start 3 s)

/-- RESERVED_OP4: START ends at once with BAD_OP (60_exceptions.md R212, R213). -/
def execReservedOp4 (s : State) : Host.Outcome State Fault Refusal := .next (start 4 s)

/-- RESERVED_OP5: START ends at once with BAD_OP (60_exceptions.md R212, R213). -/
def execReservedOp5 (s : State) : Host.Outcome State Fault Refusal := .next (start 5 s)

/-- RESERVED_OP6: START ends at once with BAD_OP (60_exceptions.md R212, R213). -/
def execReservedOp6 (s : State) : Host.Outcome State Fault Refusal := .next (start 6 s)

/-- RESERVED_OP7: START ends at once with BAD_OP (60_exceptions.md R212, R213). -/
def execReservedOp7 (s : State) : Host.Outcome State Fault Refusal := .next (start 7 s)

/-- SET_OP: a CTRL write with START = 0 stores OP only (30_encoding.md R93), and nothing while BUSY (20_memory.md R69). -/
def execSetOp (op : BitVec 3) (s : State) : Host.Outcome State Fault Refusal :=
  .next (if s.busy then s else s.storeOp op)

end Sys2Proof.Machine
end

