-- ==== Sys2Proof/Machine/Dispatch.lean ====
section
/-! DEFINITION. One arm per row of the opcode table, each one call of that instruction's meaning. -/
namespace Sys2Proof.Machine

def exec (i : Instr) (s : State) : Host.Outcome State Fault Refusal :=
  match i with
  | .varint => Sys2Proof.Machine.execVarint s
  | .run => Sys2Proof.Machine.execRun s
  | .bitpack => Sys2Proof.Machine.execBitpack s
  | .hybrid => Sys2Proof.Machine.execHybrid s
  | .reservedOp4 => Sys2Proof.Machine.execReservedOp4 s
  | .reservedOp5 => Sys2Proof.Machine.execReservedOp5 s
  | .reservedOp6 => Sys2Proof.Machine.execReservedOp6 s
  | .reservedOp7 => Sys2Proof.Machine.execReservedOp7 s
  | .setOp op => Sys2Proof.Machine.execSetOp op s
  | .runBlock c => Sys2Proof.Machine.execRunBlock c s
  | .litBlock g => Sys2Proof.Machine.execLitBlock g s

end Sys2Proof.Machine
end

