-- ==== Sys2Proof/Machine/Agents.lean ====
section
/-! DEFINITION. What the two agents do (10_state.md R39): the host's bus accesses (20_memory.md), the engine's working and
completion steps (10_state.md R36, R42), and reset (70_reset_and_hazards.md R240). -/
namespace Sys2Proof.Machine

/-- Whether a bus access is admitted: 32 bits wide at an aligned address (20_memory.md R64). -/
def admitted (bytes addr : Nat) : Bool := decide (bytes = 4) && decide (addr % 4 = 0)

/-- A register as a host read sees it, OUT_LEN while IDLE (10_state.md R21 to R30, 20_memory.md R69). -/
def readReg (r : Reg) (s : State) : Word :=
  match r with
  | .ctrl => s.op.setWidth 32
  | .status => statusWord s
  | .bitWidth => s.bitWidth
  | .inLen => s.inLen
  | .arg => s.arg
  | .count => s.count
  | .outLen => s.outLen
  | .capIn => s.capIn
  | .capOut => s.capOut

/-- A read that returns `Draw(4)` (20_memory.md R64, R65, R69). -/
def answerDraw (s : State) : State := s.answer (drawWord s.draws) 4

/-- HostRead(addr): what the host reads goes to `reply`; the block's state is unchanged (20_memory.md R64 to R69). -/
def hostRead (bytes addr : Nat) (s : State) : Host.Outcome State Fault Refusal :=
  if admitted bytes addr then
    match locate s addr with
    | .unmapped => .next (answerDraw (s.recordFault .busUnmapped))
    | .reg r => .next (if r = .outLen ∧ s.busy then answerDraw s else s.answer (readReg r s) 0)
    | .inMem => .next (s.answer (wordAt s.mem addr s.draws) 4)
    | .outMem => .next (if s.busy then answerDraw s else s.answer (wordAt s.mem addr s.draws) 4)
  else .next (answerDraw (s.recordFault .busMisaligned))

/-- A write of a register: CTRL's data is a command word (30_encoding.md R90); the operand registers are written while
IDLE; STATUS, OUT_LEN, CAP_IN and CAP_OUT ignore writes (10_state.md R21, 20_memory.md R68, R69). -/
def writeReg (r : Reg) (data : Word) (s : State) : Host.Outcome State Fault Refusal :=
  match r with
  | .ctrl => exec (decodeCommand data) s
  | .bitWidth => .next (if s.busy then s else s.setBitWidth data)
  | .inLen => .next (if s.busy then s else s.setInLen data)
  | .arg => .next (if s.busy then s else s.setArg data)
  | .count => .next (if s.busy then s else s.setCount data)
  | .status => .next s
  | .outLen => .next s
  | .capIn => .next s
  | .capOut => .next s

/-- HostWrite(addr, data) (20_memory.md R62 to R69). A faulting access has no effect on block state (60_exceptions.md R216). -/
def hostWrite (bytes addr : Nat) (data : Word) (s : State) : Host.Outcome State Fault Refusal :=
  if admitted bytes addr then
    match locate s addr with
    | .unmapped => .next (s.recordFault .busUnmapped)
    | .reg r => writeReg r data s
    | .inMem => .next (if s.busy then s else s.storeWord addr data)
    | .outMem => .next s
  else .next (s.recordFault .busMisaligned)

/-- Complete(draws) (10_state.md R42): the engine's remaining transitions, then the result's writes, in one step. -/
def complete (s : State) : Host.Outcome State Fault Refusal :=
  match s.phase with
  | .idle => .fault .notEnabled
  | .busy S w =>
    .next (s.commit (runEngine S (engineFuel S) w s.draws).1.out S.unwritten (runEngine S (engineFuel S) w s.draws).2)

/-- One transition of the engine's working state (10_state.md R36, 43_hybrid.md R186). A block to emit is fetched as its
header and executed as the instruction the header announces (30_encoding.md R95). -/
def engineWork (s : State) : Host.Outcome State Fault Refusal :=
  match s.phase with
  | .idle => .fault .notEnabled
  | .busy S w =>
    match nextAct S w with
    | .none => .fault .notEnabled
    | .emitBlock h => exec (Instr.ofHeader h) s
    | .emitInt => .next (s.withWork S (doAct S .emitInt w s.draws) (drawsAfter s.draws w (doAct S .emitInt w s.draws)))
    | .openSpan => .next (s.withWork S (doAct S .openSpan w s.draws) s.draws)
    | .extendSpan => .next (s.withWork S (doAct S .extendSpan w s.draws) s.draws)
    | .stop => .next (s.withWork S (doAct S .stop w s.draws) s.draws)

/-- DONE, bit 1 of STATUS (10_state.md R23), in the value a read returned. -/
def doneRead (reply : Option Word) : Bool :=
  match reply with
  | none => false
  | some v => v.getLsbD 1

/-- The host's branch after a read of STATUS in the loop `L: RD STATUS`: with DONE 1 in the value read the loop is left,
else it goes on as `again` (30_encoding.md R103). -/
def State.afterPoll (again : Event) (s : State) : State :=
  s.withPending (if doneRead s.reply then s.pending else again :: s.pending)

/-- One turn of the loop `L: RD STATUS` (30_encoding.md R103). -/
def pollStatus (again : Event) (s : State) : Host.Outcome State Fault Refusal :=
  match hostRead 4 (Reg.offset .status) s with
  | .next t => .next (t.afterPoll again)
  | .fault f => .fault f
  | .refused r => .refused r

/-- One step of the host's WAIT (30_encoding.md R103): a poll, or, where no poll is left before it, the completion step of
a BUSY block (10_state.md R40, log entry 23). -/
def hostWait (polls : Nat) (s : State) : Host.Outcome State Fault Refusal :=
  match polls with
  | 0 => if s.busy then complete (s.withPending (.wait 0 :: s.pending)) else pollStatus (.wait 0) s
  | n + 1 => pollStatus (.wait n) s

/-- What an event does (10_state.md R39, 70_reset_and_hazards.md R240). -/
def runEvent (e : Event) (s : State) : Host.Outcome State Fault Refusal :=
  match e with
  | .hostRead bytes addr => hostRead bytes addr s
  | .hostWrite bytes addr data => hostWrite bytes addr data s
  | .work => engineWork s
  | .complete => complete s
  | .reset => .next s.toReset
  | .wait polls => hostWait polls s

/-- With no event pending, a started command completes (10_state.md R40) and an IDLE block waits
(70_reset_and_hazards.md R242). -/
def quiet (s : State) : Host.Outcome State Fault Refusal := if s.busy then complete s else .next s

/-- The state that is about to emit the block of an opcode-table row (log entry 7): a RUN of that count, or a BITPACK of
that many groups of zeros. -/
def armBlock (i : Instr) (s : State) : State :=
  match i with
  | .runBlock c =>
    { s with
      phase := .busy { snapshot .run s with count := BitVec.ofNat 32 c } Work.fresh
      pending := .work :: s.pending }
  | .litBlock g =>
    { s with
      phase := .busy { snapshot .varint s with cmd := .bitpack, n := BitVec.ofNat 32 (8 * g), input := List.replicate (8 * g) 0 }
        Work.fresh
      pending := .work :: s.pending }
  | _ => s

/-- The state with the instruction of an opcode-table row as the next to run (log entry 7). -/
def placeWord (s : State) (nbits w : Nat) : State :=
  if nbits ≤ 8 then
    match decodeTableWord nbits w with
    | some i => armBlock i s
    | none => s
  else { s with pending := .hostWrite 4 (Reg.offset .ctrl) (BitVec.ofNat 32 w) :: s.pending }

end Sys2Proof.Machine
end

