-- ==== Sys2Proof/Machine/Step.lean ====
section
/-! DEFINITION. One step: the next pending event happens (10_state.md R39), to the state it is no longer pending in. -/
namespace Sys2Proof.Machine

/-- One step of the block and its host (10_state.md R39). -/
def step (s : State) : Host.Outcome State Fault Refusal :=
  match s.pending with
  | [] => quiet s
  | e :: rest => runEvent e (s.withPending rest)

/-- The state whose next step runs the instruction of an opcode-table row (log entry 7). -/
def State.withFetchWord (s : State) (nbits w : Nat) : State := placeWord s nbits w

end Sys2Proof.Machine
end

