-- ==== Sys2Proof/Machine/HostNotation.lean ====
section
/-! DEFINITION. The host's notation for bus accesses and its pseudo-instructions (30_encoding.md R102, R103), as events. -/
namespace Sys2Proof.Machine

/-- `WR reg, imm` (30_encoding.md R102). -/
def wr (r : Reg) (v : Word) : Event := .hostWrite 4 r.offset v

/-- `RD reg` (30_encoding.md R102). -/
def rd (r : Reg) : Event := .hostRead 4 r.offset

/-- `WRIN k, imm` (30_encoding.md R102). -/
def wrin (k : Nat) (v : Word) : Event := .hostWrite 4 (inAddr k) v

/-- `RDIN k` (30_encoding.md R102). -/
def rdin (k : Nat) : Event := .hostRead 4 (inAddr k)

/-- `RDOUT w` (30_encoding.md R102). -/
def rdout (w : Nat) : Event := .hostRead 4 (outAddr (4 * w))

/-- OP of a command (30_encoding.md R91). -/
def Command.code : Command → BitVec 3
  | .varint => 0
  | .run => 1
  | .bitpack => 2
  | .hybrid => 3

/-- `START MNEMONIC` (30_encoding.md R103). -/
def startCmd (c : Command) : Event := wr .ctrl (commandWord c.code true)

/-- `WAIT` (30_encoding.md R103): of a BUSY block, with its completion after `polls` reads that find DONE 0 (log entry 23);
else its first read is what decides. -/
def wait (polls : Nat) : Event := .wait polls

/-- The writes of `WRIN k, v` for consecutive words from `k` on. -/
def loadInputs (k : Nat) : List Word → List Event
  | [] => []
  | v :: vs => wrin k v :: loadInputs (k + 1) vs

/-- `DO_VARINT n` (30_encoding.md R103). -/
def doVarint (n : Word) (polls : Nat) : List Event := [wr .arg n, startCmd .varint, wait polls]

/-- `DO_RUN v, c, bw` (30_encoding.md R103). -/
def doRun (v c bw : Word) (polls : Nat) : List Event :=
  [wr .arg v, wr .count c, wr .bitWidth bw, startCmd .run, wait polls]

/-- The expansion that `DO_BITPACK bw, vs` and `DO_HYBRID bw, vs` share (30_encoding.md R103). -/
def doLoaded (c : Command) (bw : Word) (vs : List Word) (polls : Nat) : List Event :=
  loadInputs 0 vs ++ [wr .inLen (BitVec.ofNat 32 vs.length), wr .bitWidth bw, startCmd c, wait polls]

/-- `DO_BITPACK bw, vs` (30_encoding.md R103). -/
def doBitpack (bw : Word) (vs : List Word) (polls : Nat) : List Event := doLoaded .bitpack bw vs polls

/-- `DO_HYBRID bw, vs` (30_encoding.md R103). -/
def doHybrid (bw : Word) (vs : List Word) (polls : Nat) : List Event := doLoaded .hybrid bw vs polls

end Sys2Proof.Machine
end

