-- ==== Sys2Proof/Machine/Partition.lean ====
section
/-! DEFINITION. The partition view of HYBRID (43_hybrid.md R187, R188, R192) and the other reading of "bits remain"
(42_bitpack.md R160): what the laws compare the encoder with. The machine calls none of it. -/
namespace Sys2Proof.Machine

/-- The maximal runs of a sequence in order, each as value and length (43_hybrid.md R187). -/
def maximalRuns : List Nat → List (Nat × Nat)
  | [] => []
  | v :: vs =>
    match maximalRuns vs with
    | [] => [(v, 1)]
    | (x, c) :: rest => if x = v then (v, c + 1) :: rest else (v, 1) :: (x, c) :: rest

/-- An item of the partition: a long run, or a literal span (43_hybrid.md R187). -/
inductive Item where
  | longRun (value count : Nat)
  | span (literals : List Nat)
  deriving DecidableEq, Repr

/-- Groups each maximal sequence of consecutive short runs into one literal span (43_hybrid.md R187). -/
def groupRuns : List (Nat × Nat) → List Item
  | [] => []
  | (v, c) :: rest =>
    if Config.rleThreshold ≤ c then .longRun v c :: groupRuns rest
    else
      match groupRuns rest with
      | .span ls :: more => .span (List.replicate c v ++ ls) :: more
      | more => .span (List.replicate c v) :: more

/-- The partition of a sequence (43_hybrid.md R187). -/
def partition (vs : List Nat) : List Item := groupRuns (maximalRuns vs)

/-- The block of an item, free values from `k` on (43_hybrid.md R187). -/
def Item.block (k bw : Nat) : Item → List Byte
  | .longRun v c => runEnc k v c bw
  | .span ls => bitPack k ls bw

/-- The concatenation of the items' blocks in order, free values from `k` on (43_hybrid.md R187). -/
def encodeItems (bw : Nat) : Nat → List Item → List Byte
  | _, [] => []
  | k, it :: rest => it.block k bw ++ encodeItems bw (k + (it.block k bw).length) rest

/-- The input positions an item covers, in order (43_hybrid.md R185). -/
def Item.values : Item → List Nat
  | .longRun v c => List.replicate c v
  | .span ls => ls

/-- What a reader obtains from an item's block: the run, or the span and its padding slots (43_hybrid.md R188). -/
def Item.decoded : Item → List Nat
  | .longRun v c => List.replicate c v
  | .span ls => ls ++ List.replicate (Config.group * numGroups ls.length - ls.length) 0

/-- `Dec(vs)` (43_hybrid.md R188). -/
def decodedForm (vs : List Nat) : List Nat := (partition vs).flatMap Item.decoded

/-- The length of an item's block (43_hybrid.md R192). -/
def Item.blockLength (bw : Nat) : Item → Nat
  | .longRun _ c => (varInt (2 * c)).length + ceilDiv bw 8
  | .span ls => (varInt (2 * numGroups ls.length + 1)).length + numGroups ls.length * bw

/-- Whether an item needs no padding: a run, or a span of a multiple of 8 values (43_hybrid.md R189). -/
def Item.unpadded : Item → Bool
  | .longRun _ _ => true
  | .span ls => decide (ls.length % Config.group = 0)

/-- Every block but the stream's last is free of padding (43_hybrid.md R189, R190, log entry 21). -/
def paddingOnlyLast (vs : List Nat) : Bool := (partition vs).dropLast.all Item.unpadded

/-- `Flush` with "bits remain" read as `acc != 0` (42_bitpack.md R160). -/
def flushNonzero (a : BitAcc) : List Byte :=
  if a.acc = 0 then [] else [BitVec.ofNat 8 (a.acc % 256)]

/-- `Pack` with that reading of `Flush` (42_bitpack.md R160). -/
def packNonzero (bw : Nat) : List Nat → BitAcc → List Byte
  | [], a => flushNonzero a
  | v :: vs, a => (packValue bw v a).1 ++ packNonzero bw vs (packValue bw v a).2

/-- The accumulator after packing `ls` from `a` (42_bitpack.md R153). -/
def packAcc (bw : Nat) : List Nat → BitAcc → BitAcc
  | [], a => a
  | v :: vs, a => packAcc bw vs (packValue bw v a).2

/-- `B = sum_(m < L) ls[m] << (m * bw)` (42_bitpack.md R157). -/
def packedNat (bw : Nat) : List Nat → Nat
  | [] => 0
  | v :: vs => v + 2 ^ bw * packedNat bw vs

end Sys2Proof.Machine
end

