-- ==== Sys2Proof/Machine/Reader.lean ====
section
/-! DEFINITION. The reader of the output stream (30_encoding.md R95 to R100), which the round-trip laws define correctness
by (00_scope.md R5). It is no part of the block; on bytes the encoder does not emit it fixes nothing (log entry 20). -/
namespace Sys2Proof.Machine

/-- A block as a reader sees it: a count and a value, or `8*g` slots (30_encoding.md R96, R97). -/
inductive Block where
  | run (count value : Nat)
  | lit (slots : List Nat)
  deriving DecidableEq, Repr

/-- The natural `sum_k P[k] << (8*k)` of a byte sequence (30_encoding.md R97). -/
def leValue : List Byte → Nat
  | [] => 0
  | b :: bs => b.toNat + 256 * leValue bs

/-- Slot `m` of a literal payload read as the natural `p`: bits `[m*bw + bw - 1 : m*bw]` (30_encoding.md R97). -/
def slotAt (p bw m : Nat) : Nat := p / 2 ^ (m * bw) % 2 ^ bw

/-- The `8*g` slots of a literal payload (30_encoding.md R97). -/
def slotsOf (p bw g : Nat) : List Nat := (List.range (8 * g)).map (slotAt p bw)

/-- Reads the block at the front of a stream, `bw` given out of band (30_encoding.md R95, R99, R100). -/
def readBlock (bw : Nat) (bs : List Byte) : Option (Block × List Byte) :=
  match decode .stream bs with
  | .ok (.runBlock c, rest) =>
    if ceilDiv bw 8 ≤ rest.length then
      some (.run c (leValue (rest.take (ceilDiv bw 8))), rest.drop (ceilDiv bw 8))
    else none
  | .ok (.litBlock g, rest) =>
    if g * bw ≤ rest.length then
      some (.lit (slotsOf (leValue (rest.take (g * bw))) bw g), rest.drop (g * bw))
    else none
  | _ => none

/-- The values a block decodes to: `c` copies of its value, or all of its slots (30_encoding.md R96, 43_hybrid.md R188). -/
def Block.values : Block → List Nat
  | .run c v => List.replicate c v
  | .lit slots => slots

/-- Reads blocks to the end of the stream; each takes at least one byte, so fuel `bs.length` is enough. -/
def readBlocks (bw : Nat) : Nat → List Byte → Option (List Nat)
  | _, [] => some []
  | 0, _ :: _ => none
  | fuel + 1, b :: bs =>
    match readBlock bw (b :: bs) with
    | none => none
    | some (blk, rest) =>
      match readBlocks bw fuel rest with
      | none => none
      | some vs => some (blk.values ++ vs)

/-- The values a reader obtains from a stream (43_hybrid.md R188). -/
def readStream (bw : Nat) (bs : List Byte) : Option (List Nat) := readBlocks bw bs.length bs

end Sys2Proof.Machine
end

