-- ==== Sys2Proof/Safety.lean ====
section
/-! DEFINITION. The terms the claims use: final states, and the invariant of the block (10_state.md, 70_reset_and_hazards.md
R252). -/
namespace Sys2Proof.Machine

/-- The engine is IDLE (10_state.md R34). -/
def State.idle (s : State) : Prop := s.phase = .idle

/-- A final state: the engine IDLE and the fault set empty (70_reset_and_hazards.md R252). -/
def State.final (s : State) : Prop := s.idle ∧ s.faults = FaultSet.none

/-- The capacities are legal (00_scope.md R7). -/
def State.capsLegal (s : State) : Prop :=
  1 ≤ s.capIn.toNat ∧ s.capIn.toNat ≤ 16384 ∧
  16 ≤ s.capOut.toNat ∧ s.capOut.toNat ≤ 65536 ∧ s.capOut.toNat % 4 = 0

/-- BUSY and DONE are never both 1, and ERR reads 0 unless DONE (10_state.md R23). -/
def State.statusLegal (s : State) : Prop :=
  (s.busy = true → s.done = false) ∧ (s.done = false → s.err = .ok)

/-- OUT_LEN is at most OUT_MAX (10_state.md R28). -/
def State.outLenLegal (s : State) : Prop := s.outLen.toNat ≤ s.capOut.toNat

/-- An address of IN_MEM (20_memory.md R62). -/
def State.inRegion (s : State) (a : Nat) : Prop := 0x10000 ≤ a ∧ a < 0x10000 + 4 * s.capIn.toNat

/-- An address of OUT_MEM (20_memory.md R63). -/
def State.outRegion (s : State) (a : Nat) : Prop := 0x20000 ≤ a ∧ a < 0x20000 + s.capOut.toNat

/-- Memory is in canonical form and holds bytes of IN_MEM and OUT_MEM only (20_memory.md R62, R63). -/
def State.memLegal (s : State) : Prop :=
  Memory.wf s.mem ∧ ∀ c ∈ s.mem, s.inRegion c.1 ∨ s.outRegion c.1

/-- Each IN_MEM word is written whole or not at all (20_memory.md R64: there is no partial access). -/
def State.wordsWhole (s : State) : Prop :=
  ∀ k t, k < s.capIn.toNat → t < 4 →
    (s.mem.read (inAddr k + t)).isSome = (s.mem.read (inAddr k)).isSome

/-- The snapshot equals the live operands, which passed validation (10_state.md R35). -/
def Snapshot.live (S : Snapshot) (s : State) : Prop :=
  validate s.op s = .ok ∧ S.cmd = commandOf s.op ∧
  S.bw = s.bitWidth ∧ S.n = s.inLen ∧ S.arg = s.arg ∧ S.count = s.count ∧
  S.input.length = inputCount S.cmd s ∧
  (∀ t, t < inputCount S.cmd s → ∀ w, inWord s.mem t = some w → S.input[t]? = some w) ∧
  S.unwritten = (List.range (inputCount S.cmd s)).any (fun t => (inWord s.mem t).isNone)

/-- The cursor stays in the input and a literal span is never empty when it is emitted (10_state.md R37, 43_hybrid.md
R183): in SCANNING_LITERAL_SPAN with `j = i` the span is still to absorb its first run. At the end of HYBRID `i = n`. -/
def Work.legal (w : Work) (S : Snapshot) : Prop :=
  w.i ≤ S.values.length ∧
  (w.scan = .scanningLiteralSpan →
    S.cmd = .hybrid ∧ w.i < S.values.length ∧ w.i ≤ w.j ∧ w.j ≤ S.values.length ∧
      (w.j = w.i → runlen S.values w.i < Config.rleThreshold)) ∧
  (w.scan = .done → S.cmd = .hybrid → w.i = S.values.length)

/-- While BUSY, the snapshot is live and the working state legal (10_state.md R35, R36). -/
def State.engineLegal (s : State) : Prop :=
  ∀ S w, s.phase = .busy S w → S.live s ∧ w.legal S

/-- The invariant that every step keeps. -/
structure State.Inv (s : State) : Prop where
  caps : s.capsLegal
  status : s.statusLegal
  outLen : s.outLenLegal
  mem : s.memLegal
  words : s.wordsWhole
  engine : s.engineLegal

/-- The next step is a CTRL write with START = 1 of data `d` (30_encoding.md R93). -/
def State.nextStarts (s : State) (d : Word) : Prop :=
  (∃ rest, s.pending = .hostWrite 4 (Reg.offset .ctrl) d :: rest) ∧ d.getLsbD 8 = true

/-- The next step is the completion step (10_state.md R42): named by the event, the one a WAIT has come to, or taken as
nothing else is pending. -/
def State.nextCompletes (s : State) : Prop :=
  s.busy = true ∧ (s.pending = [] ∨ (∃ rest, s.pending = .complete :: rest) ∨ ∃ rest, s.pending = .wait 0 :: rest)

/-- The next step is a host access of that width and address (10_state.md R39). -/
def State.nextAccesses (s : State) (bytes addr : Nat) : Prop :=
  ∃ rest, s.pending = .hostRead bytes addr :: rest ∨ ∃ data, s.pending = .hostWrite bytes addr data :: rest

/-- An address where nothing is mapped (20_memory.md R61 to R63, R65). -/
def State.unmappedAt (s : State) (addr : Nat) : Prop := 0x24 ≤ addr ∧ ¬ s.inRegion addr ∧ ¬ s.outRegion addr

/-- The next step is reset (70_reset_and_hazards.md R240). -/
def State.nextResets (s : State) : Prop := ∃ rest, s.pending = .reset :: rest

/-- The next step is a host write of `data` to word `IN[k]` (20_memory.md R62). -/
def State.nextWritesInput (s : State) (k : Nat) (data : Word) : Prop :=
  ∃ rest, s.pending = .hostWrite 4 (inAddr k) data :: rest

/-- The registers, STATUS, memory, fault set and capacities of two states are the same; what may differ is the engine's
working state and the model's own fields. -/
structure State.SameBlock (s t : State) : Prop where
  op : t.op = s.op
  bitWidth : t.bitWidth = s.bitWidth
  inLen : t.inLen = s.inLen
  arg : t.arg = s.arg
  count : t.count = s.count
  outLen : t.outLen = s.outLen
  capIn : t.capIn = s.capIn
  capOut : t.capOut = s.capOut
  status : statusWord t = statusWord s
  memory : ∀ a, t.mem.read a = s.mem.read a
  faults : t.faults = s.faults

/-- The model fault a host access of that width and address raises (60_exceptions.md R216). -/
def State.accessFaults (s : State) (bytes addr : Nat) (r : FaultReason) : Prop :=
  (r = .busMisaligned ∧ (bytes ≠ 4 ∨ addr % 4 ≠ 0)) ∨
  (r = .busUnmapped ∧ bytes = 4 ∧ addr % 4 = 0 ∧ s.unmappedAt addr)

/-- The outcome of that many steps in a row. -/
def steps : Nat → State → Host.Outcome State Fault Refusal
  | 0, s => .next s
  | n + 1, s =>
    match step s with
    | .next t => steps n t
    | .fault f => .fault f
    | .refused r => .refused r

/-- `IN[0..n)` holds exactly these words, all of them written (10_state.md R31). -/
def State.inputIs (s : State) (ls : List Word) : Prop :=
  s.inLen.toNat = ls.length ∧ ∀ t, t < ls.length → inWord s.mem t = ls[t]?

/-- The byte `OUT[j]` (10_state.md R32), `none` while it is unwritten. -/
def State.outByte (s : State) (j : Nat) : Option Byte := s.mem.read (outAddr j)

/-- What a completed command with result `e` leaves (10_state.md R42, 60_exceptions.md R214): IDLE and DONE, the first
OUT_MAX bytes of `e` in OUT_MEM, OUT_LEN and ERR as the rule says, every other byte of memory as in `s`. -/
structure State.Completed (s u : State) (e : List Byte) : Prop where
  idle : u.busy = false
  done : u.done = true
  err : u.err = if s.capOut.toNat < e.length then .outOverflow else .ok
  outLen : u.outLen.toNat = min e.length s.capOut.toNat
  out : ∀ j, j < min e.length s.capOut.toNat → u.outByte j = e[j]?
  rest : ∀ a, (∀ j, j < min e.length s.capOut.toNat → a ≠ outAddr j) → u.mem.read a = s.mem.read a

end Sys2Proof.Machine
end

