-- ==== Sys2Proof/Certificates/Slice0/Obligations.lean ====
section
/-! DEFINITION. The statements for the provers. Each docstring names the rule of spec/ it formalises. -/

open Sys2Proof Sys2Proof.Machine

/-! ### The encoding functions -/

/-- 40_varint.md R112: the length law of VarInt, `k` being `bitlength(n)` (00_scope.md R10), and its table by range. -/
def Obligations.VarIntLength : Prop :=
  (∀ n k : Nat, n < 2 ^ k → (∀ j, n < 2 ^ j → k ≤ j) → (varInt n).length = max 1 (ceilDiv k 7)) ∧
  (∀ n : Nat, n ≤ 127 → (varInt n).length = 1) ∧
  (∀ n : Nat, 128 ≤ n → n ≤ 16383 → (varInt n).length = 2) ∧
  (∀ n : Nat, 16384 ≤ n → n ≤ 2 ^ 21 - 1 → (varInt n).length = 3) ∧
  (∀ n : Nat, 2 ^ 21 ≤ n → n ≤ 2 ^ 28 - 1 → (varInt n).length = 4) ∧
  (∀ n : Nat, 2 ^ 28 ≤ n → n ≤ 2 ^ 35 - 1 → (varInt n).length = 5)

/-- 40_varint.md R113 (an inference the spec marks as its own): each byte of VarInt in closed form, the shortest form, no
two naturals with one encoding, and no encoding a proper prefix of another. -/
def Obligations.VarIntClosedForm : Prop :=
  (∀ n k : Nat, k < (varInt n).length →
    (varInt n)[k]? =
      some (BitVec.ofNat 8 (n / 2 ^ (7 * k) % 128 + if k + 1 < (varInt n).length then 128 else 0))) ∧
  (∀ n : Nat, n ≠ 0 → (varInt n).getLast? ≠ some 0) ∧
  (∀ a b : Nat, varInt a = varInt b → a = b) ∧
  (∀ (a b : Nat) (more : List Byte), varInt b = varInt a ++ more → more = [])

/-- 40_varint.md R117: decoding a VarInt, whatever follows it, yields the integer encoded. -/
def Obligations.VarIntRoundTrip : Prop :=
  ∀ (n : Nat) (rest : List Byte), readVarInt (varInt n ++ rest) = some (n, rest)

/-- 41_run.md R130, R131: every case of RunEnc, with the bytes of its payload. The payload of a value that does not fit
has the byte width's length, and nothing else is said of it (R135). -/
def Obligations.RunEncCases : Prop :=
  ∀ k v c bw : Nat,
    (c = 0 → runEnc k v c bw = []) ∧
    (c ≠ 0 → ∃ payload : List Byte,
      runEnc k v c bw = varInt (2 * c) ++ payload ∧ payload.length = ceilDiv bw 8 ∧
      (v < 2 ^ (8 * ceilDiv bw 8) →
        ∀ t, t < ceilDiv bw 8 → payload[t]? = some (BitVec.ofNat 8 (v / 2 ^ (8 * t) % 256))))

/-- 41_run.md R138: the round trip of a run block, whatever follows it: `c` copies of `v`. -/
def Obligations.RunRoundTrip : Prop :=
  ∀ (k v c bw : Nat) (rest : List Byte), 0 < c → v < 2 ^ bw →
    readBlock bw (runEnc k v c bw ++ rest) = some (.run c v, rest) ∧ (Block.run c v).values = List.replicate c v

/-- 42_bitpack.md R153 and 00_scope.md R8 (the bound is an inference the spec marks as its own): packing values below
`2^bw`, fewer than 8 bits remain after each value, the accumulator never holds more than its valid bits, and `7 + bw` bits
hold it at any time. -/
def Obligations.AccumulatorBound : Prop :=
  ∀ (bw v : Nat) (ls : List Nat), (∀ x ∈ ls, x < 2 ^ bw) → v < 2 ^ bw →
    (packAcc bw ls { acc := 0, nbits := 0 }).nbits ≤ 7 ∧
    (packAcc bw ls { acc := 0, nbits := 0 }).acc < 2 ^ (packAcc bw ls { acc := 0, nbits := 0 }).nbits ∧
    ((packAcc bw ls { acc := 0, nbits := 0 }).acc ||| (v <<< (packAcc bw ls { acc := 0, nbits := 0 }).nbits)) <
      2 ^ (7 + bw)

/-- 42_bitpack.md R156 (in part an inference the spec marks as its own): Pack emits `ceil_div(L*bw, 8)` bytes, at most
`g*bw`; the block is its exact header and a payload of exactly `g*bw` bytes, literals too wide or not (R158). -/
def Obligations.BitPackLength : Prop :=
  ∀ (k bw : Nat) (ls : List Nat), ls ≠ [] →
    (pack ls bw).length = ceilDiv (ls.length * bw) 8 ∧
    (pack ls bw).length ≤ numGroups ls.length * bw ∧
    ∃ payload : List Byte,
      bitPack k ls bw = varInt (2 * numGroups ls.length + 1) ++ payload ∧
      payload.length = numGroups ls.length * bw

/-- 42_bitpack.md R157 (an inference the spec marks as its own): the closed form of a literal payload. -/
def Obligations.BitPackClosedForm : Prop :=
  ∀ (k bw : Nat) (ls : List Nat), ls ≠ [] → (∀ x ∈ ls, x < 2 ^ bw) →
    bitPack k ls bw =
      varInt (2 * numGroups ls.length + 1) ++
        (List.range (numGroups ls.length * bw)).map
          (fun t => BitVec.ofNat 8 (packedNat bw ls / 2 ^ (8 * t) % 256))

/-- 42_bitpack.md R162: the round trip of a literal block: its slots are the literals and then zeros. -/
def Obligations.BitPackRoundTrip : Prop :=
  ∀ (k bw : Nat) (ls : List Nat) (rest : List Byte), ls ≠ [] → (∀ x ∈ ls, x < 2 ^ bw) →
    readBlock bw (bitPack k ls bw ++ rest) =
      some (.lit (ls ++ List.replicate (8 * numGroups ls.length - ls.length) 0), rest)

/-- 42_bitpack.md R159: with width 0 a literal block is its header alone, whatever the literals. -/
def Obligations.BitPackZeroWidth : Prop :=
  ∀ (k : Nat) (ls : List Nat), ls ≠ [] → bitPack k ls 0 = varInt (2 * numGroups ls.length + 1)

/-- 42_bitpack.md R160 (an inference the spec marks as its own): both readings of "bits remain" give one payload. -/
def Obligations.FlushReadings : Prop :=
  ∀ (bw : Nat) (ls : List Nat), (∀ x ∈ ls, x < 2 ^ bw) →
    padTo (packNonzero bw ls { acc := 0, nbits := 0 }) (numGroups ls.length * bw) =
      padTo (pack ls bw) (numGroups ls.length * bw)

/-- 43_hybrid.md R180: `runlen(vs, i)` is the largest `r >= 1` with `i + r <= len(vs)` and `vs[k] = vs[i]` for every `k`
in `i .. i+r-1`. -/
def Obligations.RunLengthLargest : Prop :=
  ∀ (vs : List Nat) (i : Nat), i < vs.length →
    1 ≤ runlen vs i ∧ i + runlen vs i ≤ vs.length ∧
    (∀ k, i ≤ k → k < i + runlen vs i → vs[k]? = vs[i]?) ∧
    (∀ r, 1 ≤ r → i + r ≤ vs.length → (∀ k, i ≤ k → k < i + r → vs[k]? = vs[i]?) → r ≤ runlen vs i)

/-- 43_hybrid.md R187 (an inference the spec marks as its own): Hybrid is the concatenation of one block per item of the
partition, in order. -/
def Obligations.HybridIsPartition : Prop :=
  ∀ (k bw : Nat) (vs : List Nat), hybrid k vs bw = encodeItems bw k (partition vs)

/-- 43_hybrid.md R185, and R187's consequences (inferences the spec marks as its own): the items cover the input in order,
omitting nothing; every long run has at least 8 values, adjacent ones differ, and every item covers a value; no two literal
spans are adjacent; a literal span holds no run of 8; and it holds no position of a long run beside it: it neither ends nor
begins with that run's value. -/
def Obligations.PartitionShape : Prop :=
  ∀ vs : List Nat,
    (partition vs).flatMap Item.values = vs ∧
    (∀ v c, .longRun v c ∈ partition vs → 8 ≤ c) ∧
    (∀ ls, .span ls ∈ partition vs → ls ≠ [] ∧ ∀ i, i < ls.length → runlen ls i < 8) ∧
    (∀ pre post a b, partition vs ≠ pre ++ .span a :: .span b :: post) ∧
    (∀ pre post v c d, partition vs ≠ pre ++ .longRun v c :: .longRun v d :: post) ∧
    (∀ pre post ls v c, partition vs = pre ++ .span ls :: .longRun v c :: post → ls.getLast? ≠ some v) ∧
    (∀ pre post ls v c, partition vs = pre ++ .longRun v c :: .span ls :: post → ls.head? ≠ some v)

/-- 43_hybrid.md R192 (an inference the spec marks as its own): the length of Hybrid's output, literals too wide or not. -/
def Obligations.HybridLength : Prop :=
  ∀ (k bw : Nat) (vs : List Nat),
    (hybrid k vs bw).length = ((partition vs).map (Item.blockLength bw)).sum

/-- 43_hybrid.md R188 (an inference the spec marks as its own): what a reader obtains from Hybrid's output. -/
def Obligations.HybridDecodedForm : Prop :=
  ∀ (k bw : Nat) (vs : List Nat), (∀ x ∈ vs, x < 2 ^ bw) →
    readStream bw (hybrid k vs bw) = some (decodedForm vs)

/-- 43_hybrid.md R189: the round trip, where no block but the stream's last is padded. The condition is read as R190 and
30_encoding.md R100 force it: a span that another block follows (log entry 21). -/
def Obligations.HybridRoundTrip : Prop :=
  ∀ (k bw : Nat) (vs : List Nat), (∀ x ∈ vs, x < 2 ^ bw) → paddingOnlyLast vs = true →
    ∃ ds, readStream bw (hybrid k vs bw) = some ds ∧ ds.take vs.length = vs

/-! ### Decoding and encoding -/

/-- 30_encoding.md R90 to R98: every instruction's bytes decode to it, with every operand, and leave what follows. -/
def Obligations.DecodeEncode : Prop :=
  ∀ (i : Instr) (rest : List Byte), decode i.space (encode i ++ rest) = .ok (i, rest)

/-- 30_encoding.md R91: a command word with START = 1 selects by OP, `data & 0x107 = 0x100 | OP`; every command word has
one reading, and the ignored bits have no effect (R90). -/
def Obligations.OpcodeMap : Prop :=
  (∀ d : Word, d &&& 0x107 = 0x100 ↔ decodeCommand d = .varint) ∧
  (∀ d : Word, d &&& 0x107 = 0x101 ↔ decodeCommand d = .run) ∧
  (∀ d : Word, d &&& 0x107 = 0x102 ↔ decodeCommand d = .bitpack) ∧
  (∀ d : Word, d &&& 0x107 = 0x103 ↔ decodeCommand d = .hybrid) ∧
  (∀ d : Word, d &&& 0x107 = 0x104 ↔ decodeCommand d = .reservedOp4) ∧
  (∀ d : Word, d &&& 0x107 = 0x105 ↔ decodeCommand d = .reservedOp5) ∧
  (∀ d : Word, d &&& 0x107 = 0x106 ↔ decodeCommand d = .reservedOp6) ∧
  (∀ d : Word, d &&& 0x107 = 0x107 ↔ decodeCommand d = .reservedOp7) ∧
  (∀ (d : Word) (op : BitVec 3), d &&& 0x107 = op.setWidth 32 ↔ decodeCommand d = .setOp op) ∧
  (∀ d d' : Word, d &&& 0x107 = d' &&& 0x107 → decodeCommand d = decodeCommand d')

/-- Words written out from 30_encoding.md R90, R91 and R95 decode to the instructions they stand for. -/
def Obligations.WordsDecode : Prop :=
  decodeTableWord 32 0x100 = some .varint ∧ decodeTableWord 32 0x101 = some .run ∧
  decodeTableWord 32 0x102 = some .bitpack ∧ decodeTableWord 32 0x103 = some .hybrid ∧
  decodeTableWord 32 0x105 = some .reservedOp5 ∧ decodeTableWord 32 0xFFFFFEFB = some (.setOp 3) ∧
  decodeTableWord 8 0x10 = some (.runBlock 8) ∧ decodeTableWord 8 0x03 = some (.litBlock 1)

/-! ### Steps -/

/-- A step runs the decoded instruction, the event no longer pending. First: where the next event is a host write of `d`
to CTRL and the bytes of `d` decode to a well-formed `i` (30_encoding.md R90, R93). Second, the model's choice (log entries
5 and 6: the working steps, and a block's row as the engine's action): where it is a working step of a BUSY engine that is
to emit a block, and the bytes of the block's header decode to a well-formed `i`. RUN's block of COUNT 0, which is not
well-formed (log entry 17), is in RunBlockEmits. Which event is next is the model's schedule (log entry 3). -/
def Obligations.StepRunsDecoded : Prop :=
  (∀ (s : State) (d : Word) (rest : List Event) (i : Instr),
    s.pending = .hostWrite 4 (Reg.offset .ctrl) d :: rest →
    decode .command (bytesOfWord d) = .ok (i, []) → i.wellFormed = true →
    step s = exec i (s.withPending rest)) ∧
  (∀ (s : State) (S : Snapshot) (w : Work) (h : Nat) (rest : List Event) (i : Instr),
    s.pending = .work :: rest → s.phase = .busy S w → nextAct S w = .emitBlock h →
    decode .stream (varInt h) = .ok (i, []) → i.wellFormed = true →
    step s = exec i (s.withPending rest))

/-- 10_state.md R39, 70_reset_and_hazards.md R242: each kind of event is one step; with none pending an IDLE block waits
and a BUSY one completes (R40; the schedule is log entry 3). A WAIT's step is the host's loop (R103, log entry 23). -/
def Obligations.StepKinds : Prop :=
  ∀ (s : State) (rest : List Event),
    (∀ bytes addr, s.pending = .hostRead bytes addr :: rest → step s = hostRead bytes addr (s.withPending rest)) ∧
    (∀ bytes addr d, s.pending = .hostWrite bytes addr d :: rest →
      step s = hostWrite bytes addr d (s.withPending rest)) ∧
    (s.pending = .work :: rest → step s = engineWork (s.withPending rest)) ∧
    (s.pending = .complete :: rest → step s = complete (s.withPending rest)) ∧
    (∀ polls, s.pending = .wait polls :: rest → step s = hostWait polls (s.withPending rest)) ∧
    (s.pending = .reset :: rest → step s = .next (s.withPending rest).toReset) ∧
    (s.pending = [] → s.idle → step s = .next s) ∧
    (s.pending = [] → s.busy = true → step s = complete s)

/-- 30_encoding.md R93: the whole effect of a CTRL write. -/
def Obligations.StartEffect : Prop :=
  ∀ (s : State) (d : Word) (rest : List Event),
    s.pending = .hostWrite 4 (Reg.offset .ctrl) d :: rest →
    (s.busy = true → step s = .next { s with pending := rest }) ∧
    (s.busy = false → d.getLsbD 8 = false →
      step s = .next { s with op := d.extractLsb' 0 3, pending := rest }) ∧
    (s.busy = false → d.getLsbD 8 = true → validate (d.extractLsb' 0 3) s ≠ .ok →
      step s = .next
        { s with op := d.extractLsb' 0 3, done := true, err := validate (d.extractLsb' 0 3) s, outLen := 0,
                 pending := rest }) ∧
    (s.busy = false → d.getLsbD 8 = true → validate (d.extractLsb' 0 3) s = .ok →
      ∃ n, step s = .next
        { s with op := d.extractLsb' 0 3, done := false, err := .ok,
                 phase := .busy (snapshot (commandOf (d.extractLsb' 0 3)) s) Work.fresh,
                 draws := s.draws + n, pending := rest })

/-- 60_exceptions.md R212: the code a START reports, in the order of the checks. -/
def Obligations.ValidationOrder : Prop :=
  ∀ (op : BitVec 3) (s : State),
    (validate op s = .badOp ↔ 4 ≤ op.toNat) ∧
    (validate op s = .badBw ↔ (op = 1 ∨ op = 2 ∨ op = 3) ∧ 32 < s.bitWidth.toNat) ∧
    (validate op s = .badLen ↔ (op = 2 ∨ op = 3) ∧ s.bitWidth.toNat ≤ 32 ∧ s.capIn.toNat < s.inLen.toNat) ∧
    (validate op s = .emptyLiterals ↔ op = 2 ∧ s.bitWidth.toNat ≤ 32 ∧ s.inLen.toNat = 0) ∧
    (validate op s = .ok ↔
      op = 0 ∨ (op = 1 ∧ s.bitWidth.toNat ≤ 32) ∨
      (op = 2 ∧ s.bitWidth.toNat ≤ 32 ∧ s.inLen.toNat ≤ s.capIn.toNat ∧ 1 ≤ s.inLen.toNat) ∨
      (op = 3 ∧ s.bitWidth.toNat ≤ 32 ∧ s.inLen.toNat ≤ s.capIn.toNat)) ∧
    validate op s ≠ .outOverflow

/-! ### The commands -/

/-- 40_varint.md R114: VARINT starts whatever BIT_WIDTH and IN_LEN hold, and completes with `VarInt(ARG)`, 1 to 5 bytes. -/
def Obligations.VarintResult : Prop :=
  decodeCommand 0x100 = .varint ∧
  ∀ s : State, s.idle → s.capsLegal →
    ∃ t u, exec .varint s = .next t ∧ t.busy = true ∧ complete t = .next u ∧
      s.Completed u (varInt s.arg.toNat) ∧ u.err = .ok ∧ u.faults = s.faults ∧
      u.outLen.toNat = (varInt s.arg.toNat).length ∧ 1 ≤ u.outLen.toNat ∧ u.outLen.toNat ≤ 5

/-- 41_run.md R137: RUN with a legal width completes with `RunEnc(ARG, COUNT, BIT_WIDTH)`, 0 to 9 bytes, and ERR OK; with
a width above 32 it ends at START with BAD_BW. -/
def Obligations.RunResult : Prop :=
  decodeCommand 0x101 = .run ∧
  ∀ s : State, s.idle → s.capsLegal →
    (s.bitWidth.toNat ≤ 32 →
      ∃ t u, exec .run s = .next t ∧ t.busy = true ∧ complete t = .next u ∧
        s.Completed u (runEnc t.draws s.arg.toNat s.count.toNat s.bitWidth.toNat) ∧
        u.err = .ok ∧ u.faults = s.faults ∧
        u.outLen.toNat = (runEnc t.draws s.arg.toNat s.count.toNat s.bitWidth.toNat).length ∧ u.outLen.toNat ≤ 9) ∧
    (32 < s.bitWidth.toNat → exec .run s = .next { s with op := 1, done := true, err := .badBw, outLen := 0 })

/-- 42_bitpack.md R161: BITPACK of written inputs completes with `BitPack(IN[0..IN_LEN), BIT_WIDTH)`, of the length the
rule gives; where it ends at START with an error; and an unwritten input is recorded as a fault at completion. -/
def Obligations.BitpackResult : Prop :=
  decodeCommand 0x102 = .bitpack ∧
  ∀ s : State, s.idle →
    (∀ ls : List Word, s.bitWidth.toNat ≤ 32 → s.inputIs ls → ls ≠ [] → ls.length ≤ s.capIn.toNat →
      ∃ t u, exec .bitpack s = .next t ∧ t.busy = true ∧ complete t = .next u ∧
        s.Completed u (bitPack t.draws (ls.map (fun x => x.toNat)) s.bitWidth.toNat) ∧ u.faults = s.faults ∧
        (bitPack t.draws (ls.map (fun x => x.toNat)) s.bitWidth.toNat).length =
          (varInt (2 * numGroups ls.length + 1)).length + numGroups ls.length * s.bitWidth.toNat) ∧
    (32 < s.bitWidth.toNat → exec .bitpack s = .next { s with op := 2, done := true, err := .badBw, outLen := 0 }) ∧
    (s.bitWidth.toNat ≤ 32 → s.capIn.toNat < s.inLen.toNat →
      exec .bitpack s = .next { s with op := 2, done := true, err := .badLen, outLen := 0 }) ∧
    (s.bitWidth.toNat ≤ 32 → s.inLen.toNat = 0 →
      exec .bitpack s = .next { s with op := 2, done := true, err := .emptyLiterals, outLen := 0 }) ∧
    (∀ k, s.bitWidth.toNat ≤ 32 → s.inLen.toNat ≤ s.capIn.toNat → k < s.inLen.toNat → inWord s.mem k = none →
      ∃ t u, exec .bitpack s = .next t ∧ complete t = .next u ∧ u.busy = false ∧ u.done = true ∧
        u.faults = s.faults.add .unwrittenInput)

/-- 43_hybrid.md R191: HYBRID of written inputs, none of them perhaps, completes with `Hybrid(IN[0..IN_LEN), BIT_WIDTH)`;
where it ends at START with an error; and an unwritten input is recorded as a fault at completion. -/
def Obligations.HybridResult : Prop :=
  decodeCommand 0x103 = .hybrid ∧
  ∀ s : State, s.idle →
    (∀ ls : List Word, s.bitWidth.toNat ≤ 32 → s.inputIs ls → ls.length ≤ s.capIn.toNat →
      ∃ t u, exec .hybrid s = .next t ∧ t.busy = true ∧ complete t = .next u ∧
        s.Completed u (hybrid t.draws (ls.map (fun x => x.toNat)) s.bitWidth.toNat) ∧ u.faults = s.faults) ∧
    (32 < s.bitWidth.toNat → exec .hybrid s = .next { s with op := 3, done := true, err := .badBw, outLen := 0 }) ∧
    (s.bitWidth.toNat ≤ 32 → s.capIn.toNat < s.inLen.toNat →
      exec .hybrid s = .next { s with op := 3, done := true, err := .badLen, outLen := 0 }) ∧
    (∀ k, s.bitWidth.toNat ≤ 32 → s.inLen.toNat ≤ s.capIn.toNat → k < s.inLen.toNat → inWord s.mem k = none →
      ∃ t u, exec .hybrid s = .next t ∧ complete t = .next u ∧ u.busy = false ∧ u.done = true ∧
        u.faults = s.faults.add .unwrittenInput)

/-- 60_exceptions.md R211 to R213: the reserved OP codes end at once with BAD_OP, and that is all they do. -/
def Obligations.ReservedResult : Prop :=
  ∀ s : State, s.idle →
    exec .reservedOp4 s = .next { s with op := 4, done := true, err := .badOp, outLen := 0 } ∧
    exec .reservedOp5 s = .next { s with op := 5, done := true, err := .badOp, outLen := 0 } ∧
    exec .reservedOp6 s = .next { s with op := 6, done := true, err := .badOp, outLen := 0 } ∧
    exec .reservedOp7 s = .next { s with op := 7, done := true, err := .badOp, outLen := 0 }

/-- 30_encoding.md R93: a CTRL write with START = 0 stores OP and does nothing else. -/
def Obligations.SetOpResult : Prop :=
  ∀ (s : State) (op : BitVec 3), s.idle → exec (.setOp op) s = .next { s with op := op }

/-- 70_reset_and_hazards.md R246: a START while BUSY, and any other CTRL write, is ignored. -/
def Obligations.StartWhileBusyIgnored : Prop :=
  ∀ s : State, s.busy = true →
    exec .varint s = .next s ∧ exec .run s = .next s ∧ exec .bitpack s = .next s ∧ exec .hybrid s = .next s ∧
    exec .reservedOp4 s = .next s ∧ exec .reservedOp5 s = .next s ∧ exec .reservedOp6 s = .next s ∧
    exec .reservedOp7 s = .next s ∧ ∀ op, exec (.setOp op) s = .next s

/-- The frame of the command words: a CTRL write changes OP, STATUS, OUT_LEN (to 0, on a validation error) and the
engine's phase; every other register, the fault set, what the host read and every byte of memory stay (30_encoding.md R93,
60_exceptions.md R213). -/
def Obligations.CommandFrame : Prop :=
  ∀ (s t : State) (i : Instr), i.space = .command → exec i s = .next t →
    t.bitWidth = s.bitWidth ∧ t.inLen = s.inLen ∧ t.arg = s.arg ∧ t.count = s.count ∧
    t.capIn = s.capIn ∧ t.capOut = s.capOut ∧ t.faults = s.faults ∧ t.reply = s.reply ∧ t.pending = s.pending ∧
    (t.outLen = s.outLen ∨ (t.outLen = 0 ∧ t.busy = false ∧ t.done = true ∧ t.err ≠ .ok)) ∧
    (∀ op, i = .setOp op →
      t.done = s.done ∧ t.err = s.err ∧ t.outLen = s.outLen ∧ t.phase = s.phase ∧ t.draws = s.draws) ∧
    (∀ a, t.mem.read a = s.mem.read a)

/-! ### The engine and its blocks -/

/-- 43_hybrid.md R186 and R182, 41_run.md R137: RUN_BLOCK, where the engine is to emit a run block of that count: for RUN
its one block, for HYBRID the run at the cursor. The output grows by RunEnc of the value, and HYBRID's cursor passes the
run. That the row means this action is the model's choice (log entry 6), and so is RUN's going from SCANNING_RUN to DONE
(log entry 5: R36 and R186 give these states to HYBRID); the free values are those of log entries 2 and 15. -/
def Obligations.RunBlockEmits : Prop :=
  ∀ (s : State) (S : Snapshot) (w : Work) (c : Nat), s.phase = .busy S w → w.scan = .scanningRun →
    (S.cmd = .run → c = S.count.toNat →
      ∃ t, exec (.runBlock c) s = .next t ∧ t.phase = .busy S
        { w with scan := .done, out := w.out ++ runEnc s.draws S.arg.toNat c S.bw.toNat }) ∧
    (S.cmd = .hybrid → w.i < S.values.length → 8 ≤ runlen S.values w.i → c = runlen S.values w.i →
      ∃ t, exec (.runBlock c) s = .next t ∧ t.phase = .busy S
        { w with scan := .scanningRun, i := w.i + c,
                 out := w.out ++ runEnc s.draws (valueAt S.values w.i) c S.bw.toNat })

/-- 43_hybrid.md R186 and R183, 42_bitpack.md R161: LIT_BLOCK, where the engine is to emit a literal block of that many
groups: for BITPACK its one block, for HYBRID the span that cannot be extended. The output grows by BitPack of the
literals, and HYBRID's cursor moves to the span's end. That the row means this action is the model's choice (log entry 6),
and so is BITPACK's going from SCANNING_RUN to DONE (log entry 5: R36 and R186 give these states to HYBRID); the free
values are those of log entries 2 and 15. -/
def Obligations.LitBlockEmits : Prop :=
  ∀ (s : State) (S : Snapshot) (w : Work) (g : Nat), s.phase = .busy S w →
    (S.cmd = .bitpack → w.scan = .scanningRun → g = numGroups S.values.length →
      ∃ t, exec (.litBlock g) s = .next t ∧ t.phase = .busy S
        { w with scan := .done, out := w.out ++ bitPack s.draws S.values S.bw.toNat }) ∧
    (S.cmd = .hybrid → w.scan = .scanningLiteralSpan →
      (w.j < S.values.length → 8 ≤ runlen S.values w.j) → g = numGroups (slice S.values w.i w.j).length →
      ∃ t, exec (.litBlock g) s = .next t ∧ t.phase = .busy S
        { w with scan := .scanningRun, i := w.j,
                 out := w.out ++ bitPack s.draws (slice S.values w.i w.j) S.bw.toNat })

/-- 43_hybrid.md R186: a block the engine is not to emit is no step of it: the model stops by name (log entry 4). -/
def Obligations.BlockNotDue : Prop :=
  ∀ (s : State) (n : Nat),
    (s.idle → exec (.runBlock n) s = .fault .notEnabled ∧ exec (.litBlock n) s = .fault .notEnabled) ∧
    (∀ S w, s.phase = .busy S w → nextAct S w ≠ .emitBlock (runHeader n) →
      exec (.runBlock n) s = .fault .notEnabled) ∧
    (∀ S w, s.phase = .busy S w → nextAct S w ≠ .emitBlock (litHeader n) →
      exec (.litBlock n) s = .fault .notEnabled)

/-- The frame of the stream blocks (10_state.md R36): emitting one changes the engine's working state and the free values
used, and neither a register nor a byte of memory nor the snapshot. That a row of the table is this action is the model's
choice (log entry 6), and so is the counter of free values (log entry 2). -/
def Obligations.BlockFrame : Prop :=
  ∀ (s t : State) (i : Instr), i.space = .stream → exec i s = .next t →
    s.SameBlock t ∧ t.reply = s.reply ∧ t.pending = s.pending ∧
    ∃ S w w', s.phase = .busy S w ∧ t.phase = .busy S w' ∧ s.draws ≤ t.draws

/-- 10_state.md R42, with 20_memory.md R72 and 60_exceptions.md R214: what the completion step of a command leaves, from
the working state at START, for any snapshot; it writes no register but OUT_LEN and STATUS. -/
def Obligations.CompletionEffect : Prop :=
  ∀ (s : State) (S : Snapshot), s.phase = .busy S Work.fresh →
    ∃ u, complete s = .next u ∧ s.Completed u (result S s.draws) ∧
      u.phase = .idle ∧ u.op = s.op ∧ u.bitWidth = s.bitWidth ∧ u.inLen = s.inLen ∧ u.arg = s.arg ∧
      u.count = s.count ∧ u.capIn = s.capIn ∧ u.capOut = s.capOut ∧ u.reply = s.reply ∧ u.pending = s.pending ∧
      u.faults = if S.unwritten then s.faults.add .unwrittenInput else s.faults

/-- 43_hybrid.md R186 against R181, 10_state.md R41: the engine's transitions from START to the end build `E(S)`. The model's choices in it: that VARINT, RUN and BITPACK use
the dispatcher's states (log entry 5), and that each byte of the result takes one free value's index (log entry 15). -/
def Obligations.EngineComputesResult : Prop :=
  ∀ (S : Snapshot) (k : Nat),
    (runEngine S (engineFuel S) Work.fresh k).1.out = result S k ∧
    (runEngine S (engineFuel S) Work.fresh k).1.scan = .done ∧
    (runEngine S (engineFuel S) Work.fresh k).2 = k + (result S k).length

/-- 10_state.md R36, 92_eei_decisions.md D25: a working step before the completion step changes nothing of what the
completion leaves: both ways the state after is the same. -/
def Obligations.WorkThenComplete : Prop :=
  ∀ (s t : State), s.Inv → engineWork s = .next t → ∃ u, complete t = .next u ∧ complete s = .next u

/-- 43_hybrid.md R183, 42_bitpack.md R152: in a state that meets the invariant the engine never emits a literal block of
an empty span, so the free value of log entry 8 is used by none. -/
def Obligations.SpanNeverEmpty : Prop :=
  ∀ (s : State) (S : Snapshot) (w : Work) (g : Nat), s.Inv → s.phase = .busy S w →
    nextAct S w = .emitBlock (litHeader g) → litValues S w ≠ [] ∧ 1 ≤ g ∧ g ≤ 2048

/-! ### The bus -/

/-- 10_state.md R22, R24 to R27: an operand register written while IDLE reads back the data, CTRL the OP stored; the write
changes nothing else. -/
def Obligations.RegisterReadBack : Prop :=
  ∀ (s : State) (v : Word), s.busy = false →
    hostWrite 4 0x08 v s = .next { s with bitWidth := v } ∧
    hostWrite 4 0x0C v s = .next { s with inLen := v } ∧
    hostWrite 4 0x10 v s = .next { s with arg := v } ∧
    hostWrite 4 0x14 v s = .next { s with count := v } ∧
    hostRead 4 0x08 s = .next { s with reply := some s.bitWidth } ∧
    hostRead 4 0x0C s = .next { s with reply := some s.inLen } ∧
    hostRead 4 0x10 s = .next { s with reply := some s.arg } ∧
    hostRead 4 0x14 s = .next { s with reply := some s.count } ∧
    hostRead 4 0x18 s = .next { s with reply := some s.outLen } ∧
    hostRead 4 0x00 s = .next { s with reply := some (s.op.setWidth 32) }

/-- 10_state.md R23: the bits of STATUS as a host reads them at any time, and a write of STATUS has no effect; with the
codes of ERR (60_exceptions.md R211). -/
def Obligations.StatusRead : Prop :=
  ∀ (s : State) (v : Word),
    hostRead 4 0x04 s = .next { s with reply := some (statusWord s) } ∧
    hostWrite 4 0x04 v s = .next s ∧
    (statusWord s).getLsbD 0 = s.busy ∧ (statusWord s).getLsbD 1 = s.done ∧
    (statusWord s).extractLsb' 2 2 = 0 ∧ (statusWord s).extractLsb' 4 4 = s.err.code ∧
    (statusWord s).extractLsb' 8 24 = 0 ∧
    Err.ok.code = 0 ∧ Err.badOp.code = 1 ∧ Err.badBw.code = 2 ∧ Err.badLen.code = 3 ∧ Err.emptyLiterals.code = 4 ∧
    Err.outOverflow.code = 5

/-- 10_state.md R29, R30: CAP_IN and CAP_OUT always read the capacities, which reset leaves at N_MAX and OUT_MAX, writes of
them and of OUT_LEN are ignored, and no step changes them. -/
def Obligations.CapacitiesConstant : Prop :=
  State.reset.capIn.toNat = Config.nMax ∧ State.reset.capOut.toNat = Config.outMax ∧
  (∀ (s : State) (v : Word),
    hostRead 4 0x1C s = .next { s with reply := some s.capIn } ∧
    hostRead 4 0x20 s = .next { s with reply := some s.capOut } ∧
    hostWrite 4 0x1C v s = .next s ∧ hostWrite 4 0x20 v s = .next s ∧ hostWrite 4 0x18 v s = .next s) ∧
  (∀ s t : State, step s = .next t → t.capIn = s.capIn ∧ t.capOut = s.capOut)

/-- 20_memory.md R62, R68: a word written to IN_MEM while IDLE reads back, and no other byte of memory and nothing else of
the state changes; a read of IN_MEM changes nothing of the block, and returns the word where it is written. -/
def Obligations.InputReadBack : Prop :=
  ∀ (s : State) (k : Nat) (v : Word), s.busy = false → s.capsLegal → k < s.capIn.toNat →
    (∃ t, hostWrite 4 (inAddr k) v s = .next t ∧ t = { s with mem := t.mem } ∧ inWord t.mem k = some v ∧
      (∃ u, hostRead 4 (inAddr k) t = .next u ∧ u.reply = some v) ∧
      ∀ a, (a < inAddr k ∨ inAddr k + 4 ≤ a) → t.mem.read a = s.mem.read a) ∧
    ∃ r, hostRead 4 (inAddr k) s = .next { s with reply := some r, draws := s.draws + 4 } ∧
      ∀ x, inWord s.mem k = some x → r = x

/-- 20_memory.md R63, R66: a word read from OUT_MEM while IDLE holds the written ones of its four bytes, little-endian;
a write to OUT_MEM is ignored. -/
def Obligations.OutputRead : Prop :=
  ∀ (s : State) (w : Nat) (v : Word), s.capsLegal → 4 * w < s.capOut.toNat →
    hostWrite 4 (outAddr (4 * w)) v s = .next s ∧
    (s.busy = false →
      ∃ t r, hostRead 4 (outAddr (4 * w)) s = .next t ∧ t.reply = some r ∧ s.SameBlock t ∧ t.phase = s.phase ∧
        ∀ k b, k < 4 → s.outByte (4 * w + k) = some b → r.extractLsb' (8 * k) 8 = b)

/-- 20_memory.md R64: an access that is not 32 bits wide and aligned records BusMisaligned and has no other effect on
the block; a read returns a draw. -/
def Obligations.MisalignedAccess : Prop :=
  ∀ (s : State) (bytes addr : Nat) (v : Word), bytes ≠ 4 ∨ addr % 4 ≠ 0 →
    hostWrite bytes addr v s = .next { s with faults := s.faults.add .busMisaligned } ∧
    hostRead bytes addr s = .next
      { s with faults := s.faults.add .busMisaligned, reply := some (drawWord s.draws), draws := s.draws + 4 }

/-- 20_memory.md R65: an aligned 32-bit access to an unmapped offset or outside the window records BusUnmapped and has no
other effect on the block; a read returns a draw. Reserved bits of a mapped register are not unmapped: they read 0 and
ignore writes, and no fault is recorded. -/
def Obligations.UnmappedAccess : Prop :=
  (∀ (s : State) (addr : Nat) (v : Word), s.capsLegal → addr % 4 = 0 →
    (0x24 ≤ addr ∧ addr < 0x10000) ∨ (0x10000 + 4 * s.capIn.toNat ≤ addr ∧ addr < 0x20000) ∨
      0x20000 + s.capOut.toNat ≤ addr →
    hostWrite 4 addr v s = .next { s with faults := s.faults.add .busUnmapped } ∧
    hostRead 4 addr s = .next
      { s with faults := s.faults.add .busUnmapped, reply := some (drawWord s.draws), draws := s.draws + 4 }) ∧
  (∀ (s : State) (d : Word),
    hostRead 4 0x00 s = .next { s with reply := some (s.op.setWidth 32) } ∧
    hostRead 4 0x04 s = .next { s with reply := some (statusWord s) } ∧
    (statusWord s).extractLsb' 2 2 = 0 ∧ (statusWord s).extractLsb' 8 24 = 0 ∧
    hostWrite 4 0x00 (d &&& 0x107) s = hostWrite 4 0x00 d s ∧ hostWrite 4 0x04 d s = .next s)

/-- 20_memory.md R69, 70_reset_and_hazards.md R244, R245: while BUSY, writes to CTRL, the operand registers and IN_MEM are
ignored silently, reads of OUT_LEN and OUT_MEM return draws, and reads of the other registers and of IN_MEM their current
values (of an unwritten IN_MEM byte, as at any time, a draw: R33). -/
def Obligations.BusyAccesses : Prop :=
  ∀ (s : State) (v : Word), s.busy = true → s.capsLegal →
    (hostWrite 4 0x00 v s = .next s ∧ hostWrite 4 0x08 v s = .next s ∧ hostWrite 4 0x0C v s = .next s ∧
      hostWrite 4 0x10 v s = .next s ∧ hostWrite 4 0x14 v s = .next s ∧
      ∀ k, k < s.capIn.toNat → hostWrite 4 (inAddr k) v s = .next s) ∧
    (hostRead 4 0x18 s = .next { s with reply := some (drawWord s.draws), draws := s.draws + 4 } ∧
      ∀ w, 4 * w < s.capOut.toNat →
        hostRead 4 (outAddr (4 * w)) s = .next { s with reply := some (drawWord s.draws), draws := s.draws + 4 }) ∧
    (hostRead 4 0x00 s = .next { s with reply := some (s.op.setWidth 32) } ∧
      hostRead 4 0x04 s = .next { s with reply := some (statusWord s) } ∧
      hostRead 4 0x08 s = .next { s with reply := some s.bitWidth } ∧
      hostRead 4 0x0C s = .next { s with reply := some s.inLen } ∧
      hostRead 4 0x10 s = .next { s with reply := some s.arg } ∧
      hostRead 4 0x14 s = .next { s with reply := some s.count } ∧
      hostRead 4 0x1C s = .next { s with reply := some s.capIn } ∧
      hostRead 4 0x20 s = .next { s with reply := some s.capOut } ∧
      ∀ k, k < s.capIn.toNat → ∃ r, hostRead 4 (inAddr k) s =
          .next { s with reply := some r, draws := s.draws + 4 } ∧ ∀ x, inWord s.mem k = some x → r = x)

/-! ### The whole machine -/

/-- 70_reset_and_hazards.md R240, R241: reset, at any step and in any phase, puts the block in its reset state: registers
0, capacities as they are, IDLE, memory unwritten, no fault; and State.reset is such a state. -/
def Obligations.ResetEffect : Prop :=
  (∀ (s : State) (rest : List Event), s.pending = .reset :: rest →
    ∃ t, step s = .next t ∧ t.op = 0 ∧ t.bitWidth = 0 ∧ t.inLen = 0 ∧ t.arg = 0 ∧ t.count = 0 ∧ t.outLen = 0 ∧
      t.capIn = s.capIn ∧ t.capOut = s.capOut ∧ statusWord t = 0 ∧ t.phase = .idle ∧
      (∀ a, t.mem.read a = none) ∧ t.faults = FaultSet.none ∧ t.pending = rest) ∧
  (State.reset.op = 0 ∧ State.reset.bitWidth = 0 ∧ State.reset.inLen = 0 ∧ State.reset.arg = 0 ∧
    State.reset.count = 0 ∧ State.reset.outLen = 0 ∧ statusWord State.reset = 0 ∧ State.reset.phase = .idle ∧
    (∀ a, State.reset.mem.read a = none) ∧ State.reset.faults = FaultSet.none)

/-- The invariant holds at reset. -/
def Obligations.InvariantAtReset : Prop := State.reset.Inv

/-- Every step keeps the invariant: the capacities legal (00_scope.md R7), BUSY and DONE never both 1 and ERR 0 unless DONE
(10_state.md R23), OUT_LEN at most OUT_MAX (R28), memory canonical and inside IN_MEM and OUT_MEM (20_memory.md R62, R63),
IN_MEM words written whole (R64), and while BUSY the snapshot equal to the live operands (10_state.md R35) and the cursor
and span in the input (R37, 43_hybrid.md R183). -/
def Obligations.InvariantKept : Prop := ∀ s t : State, s.Inv → step s = .next t → t.Inv

/-- 10_state.md R34: the engine is IDLE exactly when STATUS.BUSY is 0, and at reset; IDLE is left only by a START that
passes validation, BUSY only by the completion step or reset. -/
def Obligations.PhaseTransitions : Prop :=
  (∀ s : State, s.idle ↔ (statusWord s).getLsbD 0 = false) ∧ State.reset.idle ∧
  ∀ s t : State, step s = .next t →
    (s.busy = false → t.busy = true → ∃ d, s.nextStarts d ∧ validate (d.extractLsb' 0 3) s = .ok) ∧
    (s.busy = true → t.busy = false → s.nextCompletes ∨ s.nextResets)

/-- 10_state.md R23: STATUS changes only by START, completion and reset. -/
def Obligations.StatusTransitions : Prop :=
  ∀ s t : State, step s = .next t → statusWord t ≠ statusWord s →
    (∃ d, s.nextStarts d ∧ s.busy = false) ∨ s.nextCompletes ∨ s.nextResets

/-- 10_state.md R35: while BUSY no step but reset changes CTRL.OP, an operand register or a byte of IN_MEM, and no step but
completion and reset changes the snapshot. -/
def Obligations.BusyFreezesOperands : Prop :=
  ∀ s t : State, s.capsLegal → s.busy = true → step s = .next t → ¬ s.nextResets →
    t.op = s.op ∧ t.bitWidth = s.bitWidth ∧ t.inLen = s.inLen ∧ t.arg = s.arg ∧ t.count = s.count ∧
    (∀ a, s.inRegion a → t.mem.read a = s.mem.read a) ∧
    (¬ s.nextCompletes → ∃ S w w', s.phase = .busy S w ∧ t.phase = .busy S w')

/-- 20_memory.md R72, with 10_state.md R31, R32: a byte of OUT_MEM or OUT_LEN changes only by the completion step or reset
(OUT_LEN by a validation error at START too), a byte of IN_MEM only by a host write of that word while IDLE or by reset. -/
def Obligations.MemoryWriters : Prop :=
  ∀ s t : State, s.capsLegal → step s = .next t →
    (∀ j, t.outByte j ≠ s.outByte j → s.nextCompletes ∨ s.nextResets) ∧
    (t.outLen ≠ s.outLen → s.nextCompletes ∨ s.nextResets ∨ ∃ d, s.nextStarts d ∧ t.err ≠ .ok) ∧
    (∀ k r, k < s.capIn.toNat → r < 4 → t.mem.read (inAddr k + r) ≠ s.mem.read (inAddr k + r) →
      (s.busy = false ∧ ∃ v, s.nextWritesInput k v) ∨ s.nextResets)

/-- 10_state.md R38, 60_exceptions.md R216: nothing but reset removes a reason from the fault set. A step that adds
BusMisaligned is a host access that is not 32 bits wide and aligned; one that adds BusUnmapped is an aligned 32-bit host
access where nothing is mapped; one that adds UnwrittenInput is a completion of a command with an unwritten input. -/
def Obligations.FaultSetGrows : Prop :=
  ∀ s t : State, step s = .next t → ¬ s.nextResets →
    (∀ r, s.faults.has r = true → t.faults.has r = true) ∧
    (t.faults.has .busMisaligned = true → s.faults.has .busMisaligned = false →
      ∃ bytes addr, s.nextAccesses bytes addr ∧ (bytes ≠ 4 ∨ addr % 4 ≠ 0)) ∧
    (t.faults.has .busUnmapped = true → s.faults.has .busUnmapped = false →
      ∃ addr, s.nextAccesses 4 addr ∧ addr % 4 = 0 ∧ s.unmappedAt addr) ∧
    (t.faults.has .unwrittenInput = true → s.faults.has .unwrittenInput = false →
      s.nextCompletes ∧ ∃ S w, s.phase = .busy S w ∧ S.unwritten = true)

/-- 30_encoding.md R92: a command's result depends on nothing but the operands its row names: for VARINT ARG, for RUN ARG,
COUNT and BIT_WIDTH, for BITPACK and HYBRID the IN_MEM words below IN_LEN and BIT_WIDTH. -/
def Obligations.ResultReadsOperandsOnly : Prop :=
  ∀ (s s' : State) (k : Nat),
    (s'.arg = s.arg → result (snapshot .varint s') k = result (snapshot .varint s) k) ∧
    (s'.arg = s.arg → s'.count = s.count → s'.bitWidth = s.bitWidth →
      result (snapshot .run s') k = result (snapshot .run s) k) ∧
    (∀ ls, s.inputIs ls → s'.inputIs ls → s'.bitWidth = s.bitWidth →
      result (snapshot .bitpack s') k = result (snapshot .bitpack s) k ∧
      result (snapshot .hybrid s') k = result (snapshot .hybrid s) k)

/-- 30_encoding.md R103: WAIT. Of a block that is DONE it returns at its first read; so after a START that failed
validation. Of a BUSY block it reads STATUS again and again, the completion step falls after the number of reads that the
schedule names (log entry 23, for any number), and the read after it is the last. Of a block that is neither it goes on.
What was read last is STATUS. -/
def Obligations.WaitReturns : Prop :=
  ∀ (s : State) (n : Nat) (rest : List Event),
    (s.pending = wait n :: rest → s.busy = false → s.done = true →
      step s = .next { s with reply := some (statusWord s), pending := rest }) ∧
    (∀ c : Command, s.pending = startCmd c :: wait n :: rest → s.busy = false → validate c.code s ≠ .ok →
      ∃ u, steps 2 s = .next u ∧ u.done = true ∧ u.err = validate c.code s ∧ u.outLen = 0 ∧
        u.reply = some (statusWord u) ∧ u.pending = rest) ∧
    (s.pending = wait (n + 1) :: rest → s.done = false →
      step s = .next { s with reply := some (statusWord s), pending := wait n :: rest }) ∧
    (s.pending = wait 0 :: rest → s.busy = true → step s = complete s) ∧
    (s.pending = wait 0 :: rest → s.busy = false → s.done = false →
      step s = .next { s with reply := some (statusWord s) }) ∧
    (s.pending = wait n :: rest → s.busy = true → s.done = false →
      ∃ u, steps (n + 2) s = .next u ∧ u.busy = false ∧ u.done = true ∧ u.reply = some (statusWord u) ∧ u.pending = rest)
end

