-- ==== Sys2Proof/Laws/Bus.lean ====
section
/-! SUPPORT. Where the addresses of the window lie (20_memory.md R61 to R63). -/
namespace Sys2Proof.Machine

/-- An aligned 32-bit access is admitted. -/
theorem admitted_aligned {a : Nat} (h : a % 4 = 0) : admitted 4 a = true := by simp [admitted, h]

theorem inAddr_aligned (k : Nat) : inAddr k % 4 = 0 := by unfold inAddr; omega

theorem outAddr_aligned (w : Nat) : outAddr (4 * w) % 4 = 0 := by unfold outAddr; omega

/-- The words below N_MAX lie in IN_MEM. -/
theorem locate_inAddr {s : State} {k : Nat} (hk : k < s.capIn.toNat) : locate s (inAddr k) = .inMem := by
  unfold locate inAddr
  rw [if_neg (by omega), if_pos (by omega)]

/-- The words below OUT_MAX lie in OUT_MEM, the capacities being legal. -/
theorem locate_outAddr {s : State} {w : Nat} (hc : s.capsLegal) (hw : 4 * w < s.capOut.toNat) :
    locate s (outAddr (4 * w)) = .outMem := by
  unfold State.capsLegal at hc
  unfold locate outAddr
  rw [if_neg (by omega), if_neg (by omega), if_pos (by omega)]

/-- What is located in IN_MEM lies there. -/
theorem inRegion_of_locate {s : State} {a : Nat} (h : locate s a = .inMem) : s.inRegion a := by
  unfold locate at h
  split at h
  · simp at h
  · split at h
    · assumption
    · split at h <;> simp at h

/-- What is located as unmapped lies outside the registers, IN_MEM and OUT_MEM. -/
theorem unmappedAt_of_locate {s : State} {a : Nat} (h : locate s a = .unmapped) : s.unmappedAt a := by
  unfold locate at h
  unfold State.unmappedAt State.inRegion State.outRegion
  split at h
  · simp at h
  · split at h
    · simp at h
    · split at h
      · simp at h
      · exact ⟨by omega, by assumption, by assumption⟩

/-- An access that is not admitted is not 32 bits wide or not aligned. -/
theorem admitted_false {b a : Nat} (h : admitted b a = false) : b ≠ 4 ∨ a % 4 ≠ 0 := by
  simp only [admitted, Bool.and_eq_false_iff, decide_eq_false_iff_not] at h
  exact h

/-- An access that is admitted is 32 bits wide and aligned. -/
theorem admitted_true {b a : Nat} (h : admitted b a = true) : b = 4 ∧ a % 4 = 0 := by simpa [admitted] using h

/-- A word of IN_MEM depends on its four bytes only. -/
theorem inWord_congr {m m' : Memory} {k : Nat} (h : ∀ r, r < 4 → m'.read (inAddr k + r) = m.read (inAddr k + r)) :
    inWord m' k = inWord m k := by
  unfold inWord
  rw [h 1 (by omega), h 2 (by omega), h 3 (by omega), ← Nat.add_zero (inAddr k), h 0 (by omega)]

end Sys2Proof.Machine
end

