-- ==== Sys2Proof/Laws/State.lean ====
section
/-! SUPPORT. Each named update of the state, field by field: what it writes and what it leaves. -/
namespace Sys2Proof.Machine

variable (s : State)

@[simp] theorem State.recordFault_op (r : FaultReason) : (s.recordFault r).op = s.op := rfl
@[simp] theorem State.recordFault_bitWidth (r : FaultReason) : (s.recordFault r).bitWidth = s.bitWidth := rfl
@[simp] theorem State.recordFault_inLen (r : FaultReason) : (s.recordFault r).inLen = s.inLen := rfl
@[simp] theorem State.recordFault_arg (r : FaultReason) : (s.recordFault r).arg = s.arg := rfl
@[simp] theorem State.recordFault_count (r : FaultReason) : (s.recordFault r).count = s.count := rfl
@[simp] theorem State.recordFault_outLen (r : FaultReason) : (s.recordFault r).outLen = s.outLen := rfl
@[simp] theorem State.recordFault_capIn (r : FaultReason) : (s.recordFault r).capIn = s.capIn := rfl
@[simp] theorem State.recordFault_capOut (r : FaultReason) : (s.recordFault r).capOut = s.capOut := rfl
@[simp] theorem State.recordFault_done (r : FaultReason) : (s.recordFault r).done = s.done := rfl
@[simp] theorem State.recordFault_err (r : FaultReason) : (s.recordFault r).err = s.err := rfl
@[simp] theorem State.recordFault_phase (r : FaultReason) : (s.recordFault r).phase = s.phase := rfl
@[simp] theorem State.recordFault_mem (r : FaultReason) : (s.recordFault r).mem = s.mem := rfl
@[simp] theorem State.recordFault_faults (r : FaultReason) : (s.recordFault r).faults = s.faults.add r := rfl
@[simp] theorem State.recordFault_draws (r : FaultReason) : (s.recordFault r).draws = s.draws := rfl
@[simp] theorem State.recordFault_reply (r : FaultReason) : (s.recordFault r).reply = s.reply := rfl
@[simp] theorem State.recordFault_pending (r : FaultReason) : (s.recordFault r).pending = s.pending := rfl
@[simp] theorem State.recordFault_busy (r : FaultReason) : (s.recordFault r).busy = s.busy := rfl

@[simp] theorem State.answer_op (v : Word) (n : Nat) : (s.answer v n).op = s.op := rfl
@[simp] theorem State.answer_bitWidth (v : Word) (n : Nat) : (s.answer v n).bitWidth = s.bitWidth := rfl
@[simp] theorem State.answer_inLen (v : Word) (n : Nat) : (s.answer v n).inLen = s.inLen := rfl
@[simp] theorem State.answer_arg (v : Word) (n : Nat) : (s.answer v n).arg = s.arg := rfl
@[simp] theorem State.answer_count (v : Word) (n : Nat) : (s.answer v n).count = s.count := rfl
@[simp] theorem State.answer_outLen (v : Word) (n : Nat) : (s.answer v n).outLen = s.outLen := rfl
@[simp] theorem State.answer_capIn (v : Word) (n : Nat) : (s.answer v n).capIn = s.capIn := rfl
@[simp] theorem State.answer_capOut (v : Word) (n : Nat) : (s.answer v n).capOut = s.capOut := rfl
@[simp] theorem State.answer_done (v : Word) (n : Nat) : (s.answer v n).done = s.done := rfl
@[simp] theorem State.answer_err (v : Word) (n : Nat) : (s.answer v n).err = s.err := rfl
@[simp] theorem State.answer_phase (v : Word) (n : Nat) : (s.answer v n).phase = s.phase := rfl
@[simp] theorem State.answer_mem (v : Word) (n : Nat) : (s.answer v n).mem = s.mem := rfl
@[simp] theorem State.answer_faults (v : Word) (n : Nat) : (s.answer v n).faults = s.faults := rfl
@[simp] theorem State.answer_draws (v : Word) (n : Nat) : (s.answer v n).draws = s.draws + n := rfl
@[simp] theorem State.answer_reply (v : Word) (n : Nat) : (s.answer v n).reply = some v := rfl
@[simp] theorem State.answer_pending (v : Word) (n : Nat) : (s.answer v n).pending = s.pending := rfl
@[simp] theorem State.answer_busy (v : Word) (n : Nat) : (s.answer v n).busy = s.busy := rfl

@[simp] theorem State.storeOp_op (o : BitVec 3) : (s.storeOp o).op = o := rfl
@[simp] theorem State.storeOp_bitWidth (o : BitVec 3) : (s.storeOp o).bitWidth = s.bitWidth := rfl
@[simp] theorem State.storeOp_inLen (o : BitVec 3) : (s.storeOp o).inLen = s.inLen := rfl
@[simp] theorem State.storeOp_arg (o : BitVec 3) : (s.storeOp o).arg = s.arg := rfl
@[simp] theorem State.storeOp_count (o : BitVec 3) : (s.storeOp o).count = s.count := rfl
@[simp] theorem State.storeOp_outLen (o : BitVec 3) : (s.storeOp o).outLen = s.outLen := rfl
@[simp] theorem State.storeOp_capIn (o : BitVec 3) : (s.storeOp o).capIn = s.capIn := rfl
@[simp] theorem State.storeOp_capOut (o : BitVec 3) : (s.storeOp o).capOut = s.capOut := rfl
@[simp] theorem State.storeOp_done (o : BitVec 3) : (s.storeOp o).done = s.done := rfl
@[simp] theorem State.storeOp_err (o : BitVec 3) : (s.storeOp o).err = s.err := rfl
@[simp] theorem State.storeOp_phase (o : BitVec 3) : (s.storeOp o).phase = s.phase := rfl
@[simp] theorem State.storeOp_mem (o : BitVec 3) : (s.storeOp o).mem = s.mem := rfl
@[simp] theorem State.storeOp_faults (o : BitVec 3) : (s.storeOp o).faults = s.faults := rfl
@[simp] theorem State.storeOp_draws (o : BitVec 3) : (s.storeOp o).draws = s.draws := rfl
@[simp] theorem State.storeOp_reply (o : BitVec 3) : (s.storeOp o).reply = s.reply := rfl
@[simp] theorem State.storeOp_pending (o : BitVec 3) : (s.storeOp o).pending = s.pending := rfl
@[simp] theorem State.storeOp_busy (o : BitVec 3) : (s.storeOp o).busy = s.busy := rfl

@[simp] theorem State.setBitWidth_op (v : Word) : (s.setBitWidth v).op = s.op := rfl
@[simp] theorem State.setBitWidth_bitWidth (v : Word) : (s.setBitWidth v).bitWidth = v := rfl
@[simp] theorem State.setBitWidth_inLen (v : Word) : (s.setBitWidth v).inLen = s.inLen := rfl
@[simp] theorem State.setBitWidth_arg (v : Word) : (s.setBitWidth v).arg = s.arg := rfl
@[simp] theorem State.setBitWidth_count (v : Word) : (s.setBitWidth v).count = s.count := rfl
@[simp] theorem State.setBitWidth_outLen (v : Word) : (s.setBitWidth v).outLen = s.outLen := rfl
@[simp] theorem State.setBitWidth_capIn (v : Word) : (s.setBitWidth v).capIn = s.capIn := rfl
@[simp] theorem State.setBitWidth_capOut (v : Word) : (s.setBitWidth v).capOut = s.capOut := rfl
@[simp] theorem State.setBitWidth_done (v : Word) : (s.setBitWidth v).done = s.done := rfl
@[simp] theorem State.setBitWidth_err (v : Word) : (s.setBitWidth v).err = s.err := rfl
@[simp] theorem State.setBitWidth_phase (v : Word) : (s.setBitWidth v).phase = s.phase := rfl
@[simp] theorem State.setBitWidth_mem (v : Word) : (s.setBitWidth v).mem = s.mem := rfl
@[simp] theorem State.setBitWidth_faults (v : Word) : (s.setBitWidth v).faults = s.faults := rfl
@[simp] theorem State.setBitWidth_draws (v : Word) : (s.setBitWidth v).draws = s.draws := rfl
@[simp] theorem State.setBitWidth_reply (v : Word) : (s.setBitWidth v).reply = s.reply := rfl
@[simp] theorem State.setBitWidth_pending (v : Word) : (s.setBitWidth v).pending = s.pending := rfl
@[simp] theorem State.setBitWidth_busy (v : Word) : (s.setBitWidth v).busy = s.busy := rfl

@[simp] theorem State.setInLen_op (v : Word) : (s.setInLen v).op = s.op := rfl
@[simp] theorem State.setInLen_bitWidth (v : Word) : (s.setInLen v).bitWidth = s.bitWidth := rfl
@[simp] theorem State.setInLen_inLen (v : Word) : (s.setInLen v).inLen = v := rfl
@[simp] theorem State.setInLen_arg (v : Word) : (s.setInLen v).arg = s.arg := rfl
@[simp] theorem State.setInLen_count (v : Word) : (s.setInLen v).count = s.count := rfl
@[simp] theorem State.setInLen_outLen (v : Word) : (s.setInLen v).outLen = s.outLen := rfl
@[simp] theorem State.setInLen_capIn (v : Word) : (s.setInLen v).capIn = s.capIn := rfl
@[simp] theorem State.setInLen_capOut (v : Word) : (s.setInLen v).capOut = s.capOut := rfl
@[simp] theorem State.setInLen_done (v : Word) : (s.setInLen v).done = s.done := rfl
@[simp] theorem State.setInLen_err (v : Word) : (s.setInLen v).err = s.err := rfl
@[simp] theorem State.setInLen_phase (v : Word) : (s.setInLen v).phase = s.phase := rfl
@[simp] theorem State.setInLen_mem (v : Word) : (s.setInLen v).mem = s.mem := rfl
@[simp] theorem State.setInLen_faults (v : Word) : (s.setInLen v).faults = s.faults := rfl
@[simp] theorem State.setInLen_draws (v : Word) : (s.setInLen v).draws = s.draws := rfl
@[simp] theorem State.setInLen_reply (v : Word) : (s.setInLen v).reply = s.reply := rfl
@[simp] theorem State.setInLen_pending (v : Word) : (s.setInLen v).pending = s.pending := rfl
@[simp] theorem State.setInLen_busy (v : Word) : (s.setInLen v).busy = s.busy := rfl

@[simp] theorem State.setArg_op (v : Word) : (s.setArg v).op = s.op := rfl
@[simp] theorem State.setArg_bitWidth (v : Word) : (s.setArg v).bitWidth = s.bitWidth := rfl
@[simp] theorem State.setArg_inLen (v : Word) : (s.setArg v).inLen = s.inLen := rfl
@[simp] theorem State.setArg_arg (v : Word) : (s.setArg v).arg = v := rfl
@[simp] theorem State.setArg_count (v : Word) : (s.setArg v).count = s.count := rfl
@[simp] theorem State.setArg_outLen (v : Word) : (s.setArg v).outLen = s.outLen := rfl
@[simp] theorem State.setArg_capIn (v : Word) : (s.setArg v).capIn = s.capIn := rfl
@[simp] theorem State.setArg_capOut (v : Word) : (s.setArg v).capOut = s.capOut := rfl
@[simp] theorem State.setArg_done (v : Word) : (s.setArg v).done = s.done := rfl
@[simp] theorem State.setArg_err (v : Word) : (s.setArg v).err = s.err := rfl
@[simp] theorem State.setArg_phase (v : Word) : (s.setArg v).phase = s.phase := rfl
@[simp] theorem State.setArg_mem (v : Word) : (s.setArg v).mem = s.mem := rfl
@[simp] theorem State.setArg_faults (v : Word) : (s.setArg v).faults = s.faults := rfl
@[simp] theorem State.setArg_draws (v : Word) : (s.setArg v).draws = s.draws := rfl
@[simp] theorem State.setArg_reply (v : Word) : (s.setArg v).reply = s.reply := rfl
@[simp] theorem State.setArg_pending (v : Word) : (s.setArg v).pending = s.pending := rfl
@[simp] theorem State.setArg_busy (v : Word) : (s.setArg v).busy = s.busy := rfl

@[simp] theorem State.setCount_op (v : Word) : (s.setCount v).op = s.op := rfl
@[simp] theorem State.setCount_bitWidth (v : Word) : (s.setCount v).bitWidth = s.bitWidth := rfl
@[simp] theorem State.setCount_inLen (v : Word) : (s.setCount v).inLen = s.inLen := rfl
@[simp] theorem State.setCount_arg (v : Word) : (s.setCount v).arg = s.arg := rfl
@[simp] theorem State.setCount_count (v : Word) : (s.setCount v).count = v := rfl
@[simp] theorem State.setCount_outLen (v : Word) : (s.setCount v).outLen = s.outLen := rfl
@[simp] theorem State.setCount_capIn (v : Word) : (s.setCount v).capIn = s.capIn := rfl
@[simp] theorem State.setCount_capOut (v : Word) : (s.setCount v).capOut = s.capOut := rfl
@[simp] theorem State.setCount_done (v : Word) : (s.setCount v).done = s.done := rfl
@[simp] theorem State.setCount_err (v : Word) : (s.setCount v).err = s.err := rfl
@[simp] theorem State.setCount_phase (v : Word) : (s.setCount v).phase = s.phase := rfl
@[simp] theorem State.setCount_mem (v : Word) : (s.setCount v).mem = s.mem := rfl
@[simp] theorem State.setCount_faults (v : Word) : (s.setCount v).faults = s.faults := rfl
@[simp] theorem State.setCount_draws (v : Word) : (s.setCount v).draws = s.draws := rfl
@[simp] theorem State.setCount_reply (v : Word) : (s.setCount v).reply = s.reply := rfl
@[simp] theorem State.setCount_pending (v : Word) : (s.setCount v).pending = s.pending := rfl
@[simp] theorem State.setCount_busy (v : Word) : (s.setCount v).busy = s.busy := rfl

@[simp] theorem State.storeWord_op (a : Nat) (v : Word) : (s.storeWord a v).op = s.op := rfl
@[simp] theorem State.storeWord_bitWidth (a : Nat) (v : Word) : (s.storeWord a v).bitWidth = s.bitWidth := rfl
@[simp] theorem State.storeWord_inLen (a : Nat) (v : Word) : (s.storeWord a v).inLen = s.inLen := rfl
@[simp] theorem State.storeWord_arg (a : Nat) (v : Word) : (s.storeWord a v).arg = s.arg := rfl
@[simp] theorem State.storeWord_count (a : Nat) (v : Word) : (s.storeWord a v).count = s.count := rfl
@[simp] theorem State.storeWord_outLen (a : Nat) (v : Word) : (s.storeWord a v).outLen = s.outLen := rfl
@[simp] theorem State.storeWord_capIn (a : Nat) (v : Word) : (s.storeWord a v).capIn = s.capIn := rfl
@[simp] theorem State.storeWord_capOut (a : Nat) (v : Word) : (s.storeWord a v).capOut = s.capOut := rfl
@[simp] theorem State.storeWord_done (a : Nat) (v : Word) : (s.storeWord a v).done = s.done := rfl
@[simp] theorem State.storeWord_err (a : Nat) (v : Word) : (s.storeWord a v).err = s.err := rfl
@[simp] theorem State.storeWord_phase (a : Nat) (v : Word) : (s.storeWord a v).phase = s.phase := rfl
@[simp] theorem State.storeWord_mem (a : Nat) (v : Word) : (s.storeWord a v).mem = Memory.writeBytes s.mem a (bytesOfWord v) := rfl
@[simp] theorem State.storeWord_faults (a : Nat) (v : Word) : (s.storeWord a v).faults = s.faults := rfl
@[simp] theorem State.storeWord_draws (a : Nat) (v : Word) : (s.storeWord a v).draws = s.draws := rfl
@[simp] theorem State.storeWord_reply (a : Nat) (v : Word) : (s.storeWord a v).reply = s.reply := rfl
@[simp] theorem State.storeWord_pending (a : Nat) (v : Word) : (s.storeWord a v).pending = s.pending := rfl
@[simp] theorem State.storeWord_busy (a : Nat) (v : Word) : (s.storeWord a v).busy = s.busy := rfl

@[simp] theorem State.report_op (o : BitVec 3) (e : Err) : (s.report o e).op = o := rfl
@[simp] theorem State.report_bitWidth (o : BitVec 3) (e : Err) : (s.report o e).bitWidth = s.bitWidth := rfl
@[simp] theorem State.report_inLen (o : BitVec 3) (e : Err) : (s.report o e).inLen = s.inLen := rfl
@[simp] theorem State.report_arg (o : BitVec 3) (e : Err) : (s.report o e).arg = s.arg := rfl
@[simp] theorem State.report_count (o : BitVec 3) (e : Err) : (s.report o e).count = s.count := rfl
@[simp] theorem State.report_outLen (o : BitVec 3) (e : Err) : (s.report o e).outLen = 0 := rfl
@[simp] theorem State.report_capIn (o : BitVec 3) (e : Err) : (s.report o e).capIn = s.capIn := rfl
@[simp] theorem State.report_capOut (o : BitVec 3) (e : Err) : (s.report o e).capOut = s.capOut := rfl
@[simp] theorem State.report_done (o : BitVec 3) (e : Err) : (s.report o e).done = true := rfl
@[simp] theorem State.report_err (o : BitVec 3) (e : Err) : (s.report o e).err = e := rfl
@[simp] theorem State.report_phase (o : BitVec 3) (e : Err) : (s.report o e).phase = s.phase := rfl
@[simp] theorem State.report_mem (o : BitVec 3) (e : Err) : (s.report o e).mem = s.mem := rfl
@[simp] theorem State.report_faults (o : BitVec 3) (e : Err) : (s.report o e).faults = s.faults := rfl
@[simp] theorem State.report_draws (o : BitVec 3) (e : Err) : (s.report o e).draws = s.draws := rfl
@[simp] theorem State.report_reply (o : BitVec 3) (e : Err) : (s.report o e).reply = s.reply := rfl
@[simp] theorem State.report_pending (o : BitVec 3) (e : Err) : (s.report o e).pending = s.pending := rfl
@[simp] theorem State.report_busy (o : BitVec 3) (e : Err) : (s.report o e).busy = s.busy := rfl

@[simp] theorem State.launch_op (o : BitVec 3) (S : Snapshot) (n : Nat) : (s.launch o S n).op = o := rfl
@[simp] theorem State.launch_bitWidth (o : BitVec 3) (S : Snapshot) (n : Nat) : (s.launch o S n).bitWidth = s.bitWidth := rfl
@[simp] theorem State.launch_inLen (o : BitVec 3) (S : Snapshot) (n : Nat) : (s.launch o S n).inLen = s.inLen := rfl
@[simp] theorem State.launch_arg (o : BitVec 3) (S : Snapshot) (n : Nat) : (s.launch o S n).arg = s.arg := rfl
@[simp] theorem State.launch_count (o : BitVec 3) (S : Snapshot) (n : Nat) : (s.launch o S n).count = s.count := rfl
@[simp] theorem State.launch_outLen (o : BitVec 3) (S : Snapshot) (n : Nat) : (s.launch o S n).outLen = s.outLen := rfl
@[simp] theorem State.launch_capIn (o : BitVec 3) (S : Snapshot) (n : Nat) : (s.launch o S n).capIn = s.capIn := rfl
@[simp] theorem State.launch_capOut (o : BitVec 3) (S : Snapshot) (n : Nat) : (s.launch o S n).capOut = s.capOut := rfl
@[simp] theorem State.launch_done (o : BitVec 3) (S : Snapshot) (n : Nat) : (s.launch o S n).done = false := rfl
@[simp] theorem State.launch_err (o : BitVec 3) (S : Snapshot) (n : Nat) : (s.launch o S n).err = .ok := rfl
@[simp] theorem State.launch_phase (o : BitVec 3) (S : Snapshot) (n : Nat) : (s.launch o S n).phase = .busy S Work.fresh := rfl
@[simp] theorem State.launch_mem (o : BitVec 3) (S : Snapshot) (n : Nat) : (s.launch o S n).mem = s.mem := rfl
@[simp] theorem State.launch_faults (o : BitVec 3) (S : Snapshot) (n : Nat) : (s.launch o S n).faults = s.faults := rfl
@[simp] theorem State.launch_draws (o : BitVec 3) (S : Snapshot) (n : Nat) : (s.launch o S n).draws = s.draws + n := rfl
@[simp] theorem State.launch_reply (o : BitVec 3) (S : Snapshot) (n : Nat) : (s.launch o S n).reply = s.reply := rfl
@[simp] theorem State.launch_pending (o : BitVec 3) (S : Snapshot) (n : Nat) : (s.launch o S n).pending = s.pending := rfl
@[simp] theorem State.launch_busy (o : BitVec 3) (S : Snapshot) (n : Nat) : (s.launch o S n).busy = true := rfl

@[simp] theorem State.withWork_op (S : Snapshot) (w : Work) (n : Nat) : (s.withWork S w n).op = s.op := rfl
@[simp] theorem State.withWork_bitWidth (S : Snapshot) (w : Work) (n : Nat) : (s.withWork S w n).bitWidth = s.bitWidth := rfl
@[simp] theorem State.withWork_inLen (S : Snapshot) (w : Work) (n : Nat) : (s.withWork S w n).inLen = s.inLen := rfl
@[simp] theorem State.withWork_arg (S : Snapshot) (w : Work) (n : Nat) : (s.withWork S w n).arg = s.arg := rfl
@[simp] theorem State.withWork_count (S : Snapshot) (w : Work) (n : Nat) : (s.withWork S w n).count = s.count := rfl
@[simp] theorem State.withWork_outLen (S : Snapshot) (w : Work) (n : Nat) : (s.withWork S w n).outLen = s.outLen := rfl
@[simp] theorem State.withWork_capIn (S : Snapshot) (w : Work) (n : Nat) : (s.withWork S w n).capIn = s.capIn := rfl
@[simp] theorem State.withWork_capOut (S : Snapshot) (w : Work) (n : Nat) : (s.withWork S w n).capOut = s.capOut := rfl
@[simp] theorem State.withWork_done (S : Snapshot) (w : Work) (n : Nat) : (s.withWork S w n).done = s.done := rfl
@[simp] theorem State.withWork_err (S : Snapshot) (w : Work) (n : Nat) : (s.withWork S w n).err = s.err := rfl
@[simp] theorem State.withWork_phase (S : Snapshot) (w : Work) (n : Nat) : (s.withWork S w n).phase = .busy S w := rfl
@[simp] theorem State.withWork_mem (S : Snapshot) (w : Work) (n : Nat) : (s.withWork S w n).mem = s.mem := rfl
@[simp] theorem State.withWork_faults (S : Snapshot) (w : Work) (n : Nat) : (s.withWork S w n).faults = s.faults := rfl
@[simp] theorem State.withWork_draws (S : Snapshot) (w : Work) (n : Nat) : (s.withWork S w n).draws = n := rfl
@[simp] theorem State.withWork_reply (S : Snapshot) (w : Work) (n : Nat) : (s.withWork S w n).reply = s.reply := rfl
@[simp] theorem State.withWork_pending (S : Snapshot) (w : Work) (n : Nat) : (s.withWork S w n).pending = s.pending := rfl
@[simp] theorem State.withWork_busy (S : Snapshot) (w : Work) (n : Nat) : (s.withWork S w n).busy = true := rfl

@[simp] theorem State.commit_op (e : List Byte) (u : Bool) (n : Nat) : (s.commit e u n).op = s.op := rfl
@[simp] theorem State.commit_bitWidth (e : List Byte) (u : Bool) (n : Nat) : (s.commit e u n).bitWidth = s.bitWidth := rfl
@[simp] theorem State.commit_inLen (e : List Byte) (u : Bool) (n : Nat) : (s.commit e u n).inLen = s.inLen := rfl
@[simp] theorem State.commit_arg (e : List Byte) (u : Bool) (n : Nat) : (s.commit e u n).arg = s.arg := rfl
@[simp] theorem State.commit_count (e : List Byte) (u : Bool) (n : Nat) : (s.commit e u n).count = s.count := rfl
@[simp] theorem State.commit_outLen (e : List Byte) (u : Bool) (n : Nat) : (s.commit e u n).outLen = BitVec.ofNat 32 (min e.length s.capOut.toNat) := rfl
@[simp] theorem State.commit_capIn (e : List Byte) (u : Bool) (n : Nat) : (s.commit e u n).capIn = s.capIn := rfl
@[simp] theorem State.commit_capOut (e : List Byte) (u : Bool) (n : Nat) : (s.commit e u n).capOut = s.capOut := rfl
@[simp] theorem State.commit_done (e : List Byte) (u : Bool) (n : Nat) : (s.commit e u n).done = true := rfl
@[simp] theorem State.commit_err (e : List Byte) (u : Bool) (n : Nat) : (s.commit e u n).err = completionErr e.length s.capOut.toNat := rfl
@[simp] theorem State.commit_phase (e : List Byte) (u : Bool) (n : Nat) : (s.commit e u n).phase = .idle := rfl
@[simp] theorem State.commit_mem (e : List Byte) (u : Bool) (n : Nat) : (s.commit e u n).mem = Memory.writeBytes s.mem (outAddr 0) (e.take s.capOut.toNat) := rfl
@[simp] theorem State.commit_faults (e : List Byte) (u : Bool) (n : Nat) : (s.commit e u n).faults = s.faults.afterCompletion u := rfl
@[simp] theorem State.commit_draws (e : List Byte) (u : Bool) (n : Nat) : (s.commit e u n).draws = n := rfl
@[simp] theorem State.commit_reply (e : List Byte) (u : Bool) (n : Nat) : (s.commit e u n).reply = s.reply := rfl
@[simp] theorem State.commit_pending (e : List Byte) (u : Bool) (n : Nat) : (s.commit e u n).pending = s.pending := rfl
@[simp] theorem State.commit_busy (e : List Byte) (u : Bool) (n : Nat) : (s.commit e u n).busy = false := rfl

@[simp] theorem State.withPending_op (r : List Event) : (s.withPending r).op = s.op := rfl
@[simp] theorem State.withPending_bitWidth (r : List Event) : (s.withPending r).bitWidth = s.bitWidth := rfl
@[simp] theorem State.withPending_inLen (r : List Event) : (s.withPending r).inLen = s.inLen := rfl
@[simp] theorem State.withPending_arg (r : List Event) : (s.withPending r).arg = s.arg := rfl
@[simp] theorem State.withPending_count (r : List Event) : (s.withPending r).count = s.count := rfl
@[simp] theorem State.withPending_outLen (r : List Event) : (s.withPending r).outLen = s.outLen := rfl
@[simp] theorem State.withPending_capIn (r : List Event) : (s.withPending r).capIn = s.capIn := rfl
@[simp] theorem State.withPending_capOut (r : List Event) : (s.withPending r).capOut = s.capOut := rfl
@[simp] theorem State.withPending_done (r : List Event) : (s.withPending r).done = s.done := rfl
@[simp] theorem State.withPending_err (r : List Event) : (s.withPending r).err = s.err := rfl
@[simp] theorem State.withPending_phase (r : List Event) : (s.withPending r).phase = s.phase := rfl
@[simp] theorem State.withPending_mem (r : List Event) : (s.withPending r).mem = s.mem := rfl
@[simp] theorem State.withPending_faults (r : List Event) : (s.withPending r).faults = s.faults := rfl
@[simp] theorem State.withPending_draws (r : List Event) : (s.withPending r).draws = s.draws := rfl
@[simp] theorem State.withPending_reply (r : List Event) : (s.withPending r).reply = s.reply := rfl
@[simp] theorem State.withPending_pending (r : List Event) : (s.withPending r).pending = r := rfl
@[simp] theorem State.withPending_busy (r : List Event) : (s.withPending r).busy = s.busy := rfl

@[simp] theorem State.toReset_op : (s.toReset).op = 0 := rfl
@[simp] theorem State.toReset_bitWidth : (s.toReset).bitWidth = 0 := rfl
@[simp] theorem State.toReset_inLen : (s.toReset).inLen = 0 := rfl
@[simp] theorem State.toReset_arg : (s.toReset).arg = 0 := rfl
@[simp] theorem State.toReset_count : (s.toReset).count = 0 := rfl
@[simp] theorem State.toReset_outLen : (s.toReset).outLen = 0 := rfl
@[simp] theorem State.toReset_capIn : (s.toReset).capIn = s.capIn := rfl
@[simp] theorem State.toReset_capOut : (s.toReset).capOut = s.capOut := rfl
@[simp] theorem State.toReset_done : (s.toReset).done = false := rfl
@[simp] theorem State.toReset_err : (s.toReset).err = .ok := rfl
@[simp] theorem State.toReset_phase : (s.toReset).phase = .idle := rfl
@[simp] theorem State.toReset_mem : (s.toReset).mem = [] := rfl
@[simp] theorem State.toReset_faults : (s.toReset).faults = FaultSet.none := rfl
@[simp] theorem State.toReset_draws : (s.toReset).draws = s.draws := rfl
@[simp] theorem State.toReset_reply : (s.toReset).reply = s.reply := rfl
@[simp] theorem State.toReset_pending : (s.toReset).pending = s.pending := rfl
@[simp] theorem State.toReset_busy : (s.toReset).busy = false := rfl

/-- BUSY is 0 exactly in the phase IDLE. -/
theorem State.busy_eq_false_iff : s.busy = false ↔ s.phase = .idle := by
  unfold State.busy; cases s.phase <;> simp [Phase.isBusy]

/-- BUSY is 1 exactly where there is a snapshot. -/
theorem State.busy_eq_true_iff : s.busy = true ↔ ∃ S w, s.phase = .busy S w := by
  unfold State.busy; cases s.phase <;> simp [Phase.isBusy]

theorem State.busy_of_phase_idle (h : s.phase = .idle) : s.busy = false := s.busy_eq_false_iff.2 h

theorem State.busy_of_phase_busy {S : Snapshot} {w : Work} (h : s.phase = .busy S w) : s.busy = true :=
  s.busy_eq_true_iff.2 ⟨S, w, h⟩

/-- Adding a reason keeps the reasons already in the fault set. -/
theorem FaultSet.has_add {q r : FaultReason} {f : FaultSet} (h : f.has q = true) : (f.add r).has q = true := by
  cases q <;> cases r <;> simp_all [FaultSet.has, FaultSet.add]

/-- The reason added is in the fault set. -/
@[simp] theorem FaultSet.has_add_self (r : FaultReason) (f : FaultSet) : (f.add r).has r = true := by
  cases r <;> rfl

end Sys2Proof.Machine
end

