-- ==== Sys2Proof/Laws/Commands.lean ====
section
/-! SUPPORT. What a CTRL write can do, and what a block's emission does. -/
namespace Sys2Proof.Machine

/-- Everything a START can do: nothing while BUSY, the report of a validation error, or a launch. -/
theorem start_cases (op : BitVec 3) (s : State) :
    (s.busy = true ∧ start op s = s) ∨
    (s.busy = false ∧ validate op s ≠ .ok ∧ start op s = s.report op (validate op s)) ∨
    (s.busy = false ∧ validate op s = .ok ∧
      start op s = s.launch op (snapshot (commandOf op) s) (4 * inputCount (commandOf op) s)) := by
  unfold start
  cases hb : s.busy
  · by_cases hv : validate op s = .ok <;> simp [hv]
  · simp

/-- A CTRL write with START = 1 is the START of the OP in its data, whichever row of the table it is. -/
theorem exec_decodeCommand_start (d : Word) (s : State) (h : d.getLsbD 8 = true) :
    exec (decodeCommand d) s = .next (start (d.extractLsb' 0 3) s) := by
  have key : ∀ op : BitVec 3, exec (if op = 0 then .varint else if op = 1 then .run else if op = 2 then .bitpack
      else if op = 3 then .hybrid else if op = 4 then .reservedOp4 else if op = 5 then .reservedOp5
      else if op = 6 then .reservedOp6 else .reservedOp7) s = .next (start op s) := by
    intro op
    have : op = 0 ∨ op = 1 ∨ op = 2 ∨ op = 3 ∨ op = 4 ∨ op = 5 ∨ op = 6 ∨ op = 7 := by
      revert op; decide
    rcases this with rfl | rfl | rfl | rfl | rfl | rfl | rfl | rfl <;> rfl
  simp only [decodeCommand, h, if_true]
  exact key _

/-- A CTRL write with START = 0 stores OP while IDLE. -/
theorem exec_decodeCommand_setOp (d : Word) (s : State) (h : d.getLsbD 8 = false) :
    exec (decodeCommand d) s = .next (if s.busy then s else s.storeOp (d.extractLsb' 0 3)) := by
  simp only [decodeCommand, h]
  rfl

/-- A header `2 * c` announces a run block. -/
@[simp] theorem ofHeader_runHeader (c : Nat) : Instr.ofHeader (runHeader c) = .runBlock c := by
  simp [Instr.ofHeader, runHeader]

/-- A header `2 * g + 1` announces a literal block. -/
@[simp] theorem ofHeader_litHeader (g : Nat) : Instr.ofHeader (litHeader g) = .litBlock g := by
  simp [Instr.ofHeader, litHeader]; omega

theorem doAct_runHeader (S : Snapshot) (c : Nat) (w : Work) (k : Nat) :
    doAct S (.emitBlock (runHeader c)) w k = emitRun S c w k := by
  simp [doAct, runHeader]

theorem doAct_litHeader (S : Snapshot) (g : Nat) (w : Work) (k : Nat) :
    doAct S (.emitBlock (litHeader g)) w k = emitLit S w k := by
  simp [doAct, litHeader]

/-- The instruction a header announces emits the block of that header, where the engine is to emit it. -/
theorem exec_ofHeader {S : Snapshot} {w : Work} {h : Nat} {s : State} (hp : s.phase = .busy S w)
    (ha : nextAct S w = .emitBlock h) :
    exec (Instr.ofHeader h) s =
      .next (s.withWork S (doAct S (.emitBlock h) w s.draws) (drawsAfter s.draws w (doAct S (.emitBlock h) w s.draws))) := by
  rcases Nat.mod_two_eq_zero_or_one h with hm | hm
  · obtain ⟨c, rfl⟩ : ∃ c, h = runHeader c := ⟨h / 2, by unfold runHeader; omega⟩
    rw [ofHeader_runHeader, doAct_runHeader]
    simp [exec, execRunBlock, hp, ha]
  · obtain ⟨g, rfl⟩ : ∃ g, h = litHeader g := ⟨h / 2, by unfold litHeader; omega⟩
    rw [ofHeader_litHeader, doAct_litHeader]
    simp [exec, execLitBlock, hp, ha]

/-- A run block that is executed was due, and the state after is that of its emission. -/
theorem execRunBlock_next {c : Nat} {s t : State} (h : execRunBlock c s = .next t) :
    ∃ S w, s.phase = .busy S w ∧ nextAct S w = .emitBlock (runHeader c) ∧
      t = s.withWork S (emitRun S c w s.draws) (drawsAfter s.draws w (emitRun S c w s.draws)) := by
  unfold execRunBlock at h
  cases hp : s.phase with
  | idle => simp [hp] at h
  | busy S w =>
    simp only [hp] at h
    split at h
    · next ha => exact ⟨S, w, rfl, ha, (Host.Outcome.next.inj h).symm⟩
    · simp at h

/-- A literal block that is executed was due, and the state after is that of its emission. -/
theorem execLitBlock_next {g : Nat} {s t : State} (h : execLitBlock g s = .next t) :
    ∃ S w, s.phase = .busy S w ∧ nextAct S w = .emitBlock (litHeader g) ∧
      t = s.withWork S (emitLit S w s.draws) (drawsAfter s.draws w (emitLit S w s.draws)) := by
  unfold execLitBlock at h
  cases hp : s.phase with
  | idle => simp [hp] at h
  | busy S w =>
    simp only [hp] at h
    split at h
    · next ha => exact ⟨S, w, rfl, ha, (Host.Outcome.next.inj h).symm⟩
    · simp at h

end Sys2Proof.Machine
end

