-- ==== Sys2Proof/Laws/Step.lean ====
section
/-! SUPPORT. Everything a step can do, agent by agent: the lemmas that claims about steps cite. -/
namespace Sys2Proof.Machine

/-- Everything a host read can do: it records at most a fault of the access, and answers a word. -/
theorem hostRead_cases (bytes addr : Nat) (s : State) :
    ∃ v n, hostRead bytes addr s = .next (s.answer v n) ∨
      ∃ r, s.accessFaults bytes addr r ∧ hostRead bytes addr s = .next ((s.recordFault r).answer v n) := by
  unfold hostRead answerDraw
  cases ha : admitted bytes addr
  · exact ⟨_, _, .inr ⟨_, .inl ⟨rfl, admitted_false ha⟩, rfl⟩⟩
  · obtain ⟨hb4, ha4⟩ := admitted_true ha
    cases hl : locate s addr with
    | unmapped => exact ⟨_, _, .inr ⟨_, .inr ⟨rfl, hb4, ha4, unmappedAt_of_locate hl⟩, rfl⟩⟩
    | reg r => simp only [if_true]; split <;> exact ⟨_, _, .inl rfl⟩
    | inMem => exact ⟨_, _, .inl rfl⟩
    | outMem => simp only [if_true]; split <;> exact ⟨_, _, .inl rfl⟩

/-- Everything a host write can do: record a fault of the access; nothing; or, while IDLE, set an operand register, store
an IN_MEM word, store OP or START. -/
theorem hostWrite_cases (bytes addr : Nat) (data : Word) (s : State) :
    (∃ r, s.accessFaults bytes addr r ∧ hostWrite bytes addr data s = .next (s.recordFault r)) ∨
    hostWrite bytes addr data s = .next s ∨
    (s.busy = false ∧ bytes = 4 ∧ addr % 4 = 0 ∧
      (hostWrite bytes addr data s = .next (s.setBitWidth data) ∨
       hostWrite bytes addr data s = .next (s.setInLen data) ∨
       hostWrite bytes addr data s = .next (s.setArg data) ∨
       hostWrite bytes addr data s = .next (s.setCount data) ∨
       (locate s addr = .inMem ∧ hostWrite bytes addr data s = .next (s.storeWord addr data)) ∨
       (locate s addr = .reg .ctrl ∧
         ((data.getLsbD 8 = false ∧ hostWrite bytes addr data s = .next (s.storeOp (data.extractLsb' 0 3))) ∨
          (data.getLsbD 8 = true ∧ hostWrite bytes addr data s = .next (start (data.extractLsb' 0 3) s)))))) := by
  unfold hostWrite
  cases ha : admitted bytes addr
  · exact .inl ⟨_, .inl ⟨rfl, admitted_false ha⟩, rfl⟩
  · obtain ⟨hb4, ha4⟩ := admitted_true ha
    cases hl : locate s addr with
    | unmapped => exact .inl ⟨_, .inr ⟨rfl, hb4, ha4, unmappedAt_of_locate hl⟩, rfl⟩
    | outMem => exact .inr (.inl rfl)
    | inMem => cases hb : s.busy <;> simp [hb4, ha4]
    | reg r =>
      cases r <;> simp only [writeReg, if_true]
      case ctrl =>
        cases h8 : data.getLsbD 8
        · rw [exec_decodeCommand_setOp _ _ h8]
          cases hb : s.busy <;> simp [hb4, ha4]
        · rw [exec_decodeCommand_start _ _ h8]
          rcases start_cases (data.extractLsb' 0 3) s with ⟨_, h⟩ | ⟨hb, _, h⟩ | ⟨hb, _, h⟩
          · simp [h]
          all_goals (right; right; exact ⟨hb, hb4, ha4, by simp⟩)
      all_goals cases hb : s.busy <;> simp [hb4, ha4]

/-- A read of STATUS answers it at any time (10_state.md R23, 20_memory.md R69). -/
theorem hostRead_status (s : State) : hostRead 4 (Reg.offset .status) s = .next (s.answer (statusWord s) 0) := rfl

/-- A poll of WAIT answers STATUS and goes on unless DONE is 1. -/
theorem pollStatus_eq (again : Event) (s : State) :
    pollStatus again s = .next ((s.answer (statusWord s) 0).withPending
      (if (statusWord s).getLsbD 1 then s.pending else again :: s.pending)) := rfl

/-- Everything a step of WAIT can do: a poll, or, of a BUSY block with no poll left, the completion step. -/
theorem hostWait_cases (n : Nat) (s : State) :
    (∃ r, hostWait n s = .next ((s.answer (statusWord s) 0).withPending r)) ∨
    (n = 0 ∧ s.busy = true ∧ hostWait n s = complete (s.withPending (.wait 0 :: s.pending))) := by
  cases n with
  | succ n => exact .inl ⟨_, pollStatus_eq _ s⟩
  | zero =>
    unfold hostWait
    cases hb : s.busy
    · exact .inl ⟨_, pollStatus_eq _ s⟩
    · exact .inr ⟨rfl, rfl, rfl⟩

/-- A completion that is taken was of a BUSY engine, and writes what its remaining work gives. -/
theorem complete_next {s t : State} (h : complete s = .next t) :
    ∃ S w, s.phase = .busy S w ∧
      t = s.commit (runEngine S (engineFuel S) w s.draws).1.out S.unwritten (runEngine S (engineFuel S) w s.draws).2 := by
  unfold complete at h
  cases hp : s.phase with
  | idle => simp [hp] at h
  | busy S w => exact ⟨S, w, rfl, by simpa [hp, eq_comm] using h⟩

/-- A working step is the engine's next transition, and changes the working state only. -/
theorem engineWork_eq {s : State} {S : Snapshot} {w : Work} (hp : s.phase = .busy S w) (ha : nextAct S w ≠ .none) :
    engineWork s = .next (s.withWork S (doAct S (nextAct S w) w s.draws)
      (drawsAfter s.draws w (doAct S (nextAct S w) w s.draws))) := by
  unfold engineWork
  simp only [hp]
  cases h : nextAct S w with
  | none => exact absurd h ha
  | emitInt => rfl
  | emitBlock hd => exact exec_ofHeader hp h
  | openSpan => simp [doAct, drawsAfter]
  | extendSpan => simp [doAct, drawsAfter]
  | stop => simp [doAct, drawsAfter]

/-- A working step that is taken was of a BUSY engine with work left. -/
theorem engineWork_next {s t : State} (h : engineWork s = .next t) :
    ∃ S w, s.phase = .busy S w ∧ nextAct S w ≠ .none ∧
      t = s.withWork S (doAct S (nextAct S w) w s.draws) (drawsAfter s.draws w (doAct S (nextAct S w) w s.draws)) := by
  cases hp : s.phase with
  | idle => simp [engineWork, hp] at h
  | busy S w =>
    by_cases ha : nextAct S w = .none
    · simp [engineWork, hp, ha] at h
    · rw [engineWork_eq hp ha] at h
      exact ⟨S, w, rfl, ha, (Host.Outcome.next.inj h).symm⟩

/-- Everything a step can do. -/
theorem step_cases {s t : State} (h : step s = .next t) :
    (s.pending = [] ∧ s.busy = false ∧ t = s) ∨
    (s.pending = [] ∧ complete s = .next t) ∨
    (∃ e rest, s.pending = e :: rest ∧ runEvent e (s.withPending rest) = .next t) := by
  unfold step at h
  cases hp : s.pending with
  | nil =>
    simp only [hp] at h
    unfold quiet at h
    cases hb : s.busy
    · simp only [hb] at h
      exact .inl ⟨rfl, rfl, (Host.Outcome.next.inj h).symm⟩
    · simp only [hb, if_true] at h
      exact .inr (.inl ⟨rfl, h⟩)
  | cons e rest =>
    simp only [hp] at h
    exact .inr (.inr ⟨e, rest, rfl, h⟩)

/-- Steps in a row begin with one. -/
theorem steps_succ {s t : State} (n : Nat) (h : step s = .next t) : steps (n + 1) s = steps n t := by
  simp only [steps, h]

/-- Everything a step can do, event by event, with the state it leaves: the one lemma claims about steps rest on. -/
theorem step_inversion {s t : State} (h : step s = .next t) :
    (s.pending = [] ∧ t = s) ∨
    (s.nextResets ∧ ∃ rest, t = (s.withPending rest).toReset) ∨
    (s.nextCompletes ∧ ∃ rest S w, s.phase = .busy S w ∧
      t = (s.withPending rest).commit (runEngine S (engineFuel S) w s.draws).1.out S.unwritten
        (runEngine S (engineFuel S) w s.draws).2) ∨
    (∃ rest S w, s.pending = .work :: rest ∧ s.phase = .busy S w ∧ nextAct S w ≠ .none ∧
      t = (s.withPending rest).withWork S (doAct S (nextAct S w) w s.draws)
        (drawsAfter s.draws w (doAct S (nextAct S w) w s.draws))) ∨
    (∃ n rest v r, s.pending = .wait n :: rest ∧ t = (s.answer v 0).withPending r) ∨
    (∃ b a rest v n, s.pending = .hostRead b a :: rest ∧
      (t = (s.withPending rest).answer v n ∨
       ∃ r, s.accessFaults b a r ∧ t = ((s.withPending rest).recordFault r).answer v n)) ∨
    (∃ b a d rest, s.pending = .hostWrite b a d :: rest ∧
      (t = s.withPending rest ∨ ∃ r, s.accessFaults b a r ∧ t = (s.withPending rest).recordFault r)) ∨
    (∃ a d rest, s.busy = false ∧ a % 4 = 0 ∧ s.pending = .hostWrite 4 a d :: rest ∧
      (t = (s.withPending rest).setBitWidth d ∨ t = (s.withPending rest).setInLen d ∨
       t = (s.withPending rest).setArg d ∨ t = (s.withPending rest).setCount d ∨
       (locate s a = .inMem ∧ t = (s.withPending rest).storeWord a d) ∨
       (a = 0 ∧ d.getLsbD 8 = false ∧ t = (s.withPending rest).storeOp (d.extractLsb' 0 3)) ∨
       (a = 0 ∧ d.getLsbD 8 = true ∧ t = start (d.extractLsb' 0 3) (s.withPending rest)))) := by
  rcases step_cases h with ⟨hp, hb, rfl⟩ | ⟨hp, hc⟩ | ⟨e, rest, hp, he⟩
  · exact .inl ⟨hp, rfl⟩
  · obtain ⟨S, w, hph, rfl⟩ := complete_next hc
    refine .inr (.inr (.inl ⟨⟨s.busy_of_phase_busy hph, .inl hp⟩, [], S, w, hph, ?_⟩))
    simp [State.commit, State.withPending, hp]
  · cases e with
    | reset => exact .inr (.inl ⟨⟨rest, hp⟩, rest, (Host.Outcome.next.inj he).symm⟩)
    | complete =>
      obtain ⟨S, w, hph, rfl⟩ := complete_next he
      exact .inr (.inr (.inl ⟨⟨s.busy_of_phase_busy hph, .inr (.inl ⟨rest, hp⟩)⟩, rest, S, w, hph, rfl⟩))
    | work =>
      obtain ⟨S, w, hph, hn, rfl⟩ := engineWork_next he
      exact .inr (.inr (.inr (.inl ⟨rest, S, w, hp, hph, hn, rfl⟩)))
    | wait n =>
      rcases hostWait_cases n (s.withPending rest) with ⟨r, hw⟩ | ⟨rfl, hb, hw⟩
      · rw [runEvent, hw] at he
        exact .inr (.inr (.inr (.inr (.inl ⟨n, rest, _, r, hp, (Host.Outcome.next.inj he).symm⟩))))
      · rw [runEvent, hw] at he
        obtain ⟨S, w, hph, rfl⟩ := complete_next he
        exact .inr (.inr (.inl ⟨⟨hb, .inr (.inr ⟨rest, hp⟩)⟩, .wait 0 :: rest, S, w, hph, rfl⟩))
    | hostRead b a =>
      obtain ⟨v, n, hh⟩ := hostRead_cases b a (s.withPending rest)
      simp only [runEvent] at he
      rcases hh with hh | ⟨r, hr, hh⟩ <;> rw [hh] at he <;>
        have := (Host.Outcome.next.inj he).symm <;> subst this
      · exact .inr (.inr (.inr (.inr (.inr (.inl ⟨b, a, rest, v, n, hp, .inl rfl⟩)))))
      · exact .inr (.inr (.inr (.inr (.inr (.inl ⟨b, a, rest, v, n, hp, .inr ⟨r, hr, rfl⟩⟩)))))
    | hostWrite b a d =>
      simp only [runEvent] at he
      have hh := hostWrite_cases b a d (s.withPending rest)
      rcases hh with ⟨r, hr, hh⟩ | hh | ⟨hb, hb4, ha4, hh⟩
      · rw [hh] at he; have := (Host.Outcome.next.inj he).symm; subst this
        exact .inr (.inr (.inr (.inr (.inr (.inr (.inl ⟨b, a, d, rest, hp, .inr ⟨r, hr, rfl⟩⟩))))))
      · rw [hh] at he; have := (Host.Outcome.next.inj he).symm; subst this
        exact .inr (.inr (.inr (.inr (.inr (.inr (.inl ⟨b, a, d, rest, hp, .inl rfl⟩))))))
      · subst hb4
        right; right; right; right; right; right; right
        refine ⟨a, d, rest, hb, ha4, hp, ?_⟩
        have hl : ∀ {p}, locate (s.withPending rest) a = p → locate s a = p := fun h => h
        have hz : locate s a = .reg .ctrl → a = 0 := by
          unfold locate
          split
          · intro h; simp [regAt] at h; grind
          · split <;> (try split) <;> simp
        rcases hh with hh | hh | hh | hh | ⟨hl', hh⟩ | ⟨hl', ⟨h8, hh⟩ | ⟨h8, hh⟩⟩ <;> rw [hh] at he <;>
        have := (Host.Outcome.next.inj he).symm <;> subst this
        · simp
        · simp
        · simp
        · simp
        · right; right; right; right; left; exact ⟨hl hl', rfl⟩
        · right; right; right; right; right; left; exact ⟨hz (hl hl'), h8, rfl⟩
        · right; right; right; right; right; right; exact ⟨hz (hl hl'), h8, rfl⟩

end Sys2Proof.Machine
end

