-- ==== Sys2Proof/Laws/Completion.lean ====
section
/-! SUPPORT. What the completion step's writes leave, and the snapshot of written inputs. -/
namespace Sys2Proof.Machine

/-- The completion step's writes leave what 10_state.md R42 says, seen from any state with the same memory and OUT_MAX. -/
theorem commit_completed {s s0 : State} (e : List Byte) (u : Bool) (k : Nat) (hm : s.mem = s0.mem)
    (hc : s.capOut = s0.capOut) : s0.Completed (s.commit e u k) e := by
  have hlen : (e.take s.capOut.toNat).length = min e.length s0.capOut.toNat := by
    rw [List.length_take, hc, Nat.min_comm]
  constructor
  · rfl
  · rfl
  · simp [completionErr, hc]
  · have := s0.capOut.isLt
    simp only [State.commit_outLen, hc, BitVec.toNat_ofNat]
    omega
  · intro j hj
    have hr : outAddr j = outAddr 0 + j := by simp [outAddr]
    rw [State.outByte, State.commit_mem, hr, Memory.read_writeBytes_at _ _ _ _ (by omega), List.getElem?_take,
      if_pos (by rw [hc]; omega)]
  · intro a ha
    rw [State.commit_mem, Memory.read_writeBytes_out, hm]
    rw [hlen]
    false_or_by_contra
    next h => exact ha (a - outAddr 0) (by omega) (by unfold outAddr at *; omega)

/-- The snapshot of a command that reads its input holds the words written, and no free value. -/
theorem snapshot_inputIs {s : State} {ls : List Word} {cmd : Command} (h : s.inputIs ls)
    (hn : inputCount cmd s = s.inLen.toNat) :
    (snapshot cmd s).input = ls ∧ (snapshot cmd s).unwritten = false := by
  obtain ⟨h1, h2⟩ := h
  rw [h1] at hn
  constructor
  · apply List.ext_getElem?
    intro i
    simp only [snapshot, hn, List.getElem?_map]
    by_cases hi : i < ls.length
    · rw [List.getElem?_range hi]; simp [engineWord, h2 i hi, hi]
    · have hi' : ls.length ≤ i := by omega
      simp [hi']
  · simp only [snapshot, hn]
    rw [List.any_eq_false]
    intro t ht
    have ht' := List.mem_range.1 ht
    rw [h2 t ht']
    simp [ht']

/-- A command's snapshot holds its operand registers. -/
@[simp] theorem snapshot_cmd (c : Command) (s : State) : (snapshot c s).cmd = c := rfl
@[simp] theorem snapshot_bw (c : Command) (s : State) : (snapshot c s).bw = s.bitWidth := rfl
@[simp] theorem snapshot_n (c : Command) (s : State) : (snapshot c s).n = s.inLen := rfl
@[simp] theorem snapshot_arg (c : Command) (s : State) : (snapshot c s).arg = s.arg := rfl
@[simp] theorem snapshot_count (c : Command) (s : State) : (snapshot c s).count = s.count := rfl

end Sys2Proof.Machine
end

