-- ==== Sys2Proof/Laws/Encoders.lean ====
section
/-! SUPPORT. The encoding functions' own small lemmas: lengths, the fuel of a loop is never used up, and the packing loop's
byte step in closed form. -/
namespace Sys2Proof.Machine

/-- VarInt's loop does not depend on its fuel, where that is at least `n`. -/
theorem varIntLoop_fuel (f g n : Nat) (hf : n ≤ f) (hg : n ≤ g) : varIntLoop f n = varIntLoop g n := by
  induction f generalizing g n with
  | zero =>
    obtain rfl : n = 0 := by omega
    cases g <;> simp [varIntLoop]
  | succ f ih =>
    cases g with
    | zero =>
      obtain rfl : n = 0 := by omega
      simp [varIntLoop]
    | succ g =>
      simp only [varIntLoop]
      split
      · rfl
      · rw [ih g (n / 128) (by omega) (by omega)]

/-- One turn of VarInt's loop (40_varint.md R110). -/
theorem varInt_eq (n : Nat) :
    varInt n = if n / 128 = 0 then [BitVec.ofNat 8 (n % 128)]
      else BitVec.ofNat 8 (n % 128 + 128) :: varInt (n / 128) := by
  unfold varInt
  cases n with
  | zero => simp [varIntLoop]
  | succ n =>
    rw [varIntLoop]
    split
    · rfl
    · rw [varIntLoop_fuel n ((n + 1) / 128) _ (by omega) (by omega)]

/-- A VarInt is not empty. -/
theorem varInt_ne_nil (n : Nat) : varInt n ≠ [] := by
  rw [varInt_eq]; split <;> simp

@[simp] theorem leBytes_length (n v : Nat) : (leBytes n v).length = n := by
  induction n generalizing v with
  | zero => rfl
  | succ n ih => simp [leBytes, ih]

@[simp] theorem drawBytes_length (k n : Nat) : (drawBytes k n).length = n := by
  simp [drawBytes]

theorem padTo_length (p : List Byte) (req : Nat) (h : p.length ≤ req) : (padTo p req).length = req := by
  simp [padTo]; omega

/-- The inner loop of Pack emits the whole bytes held, lowest first, and keeps the bits left over. -/
theorem drainBits_eq (fuel acc nbits : Nat) (h : nbits / 8 ≤ fuel) :
    drainBits fuel { acc := acc, nbits := nbits } =
      (leBytes (nbits / 8) acc, { acc := acc / 2 ^ (8 * (nbits / 8)), nbits := nbits % 8 }) := by
  induction fuel generalizing acc nbits with
  | zero =>
    have h0 : nbits / 8 = 0 := by omega
    simp [drainBits, h0, leBytes]; omega
  | succ fuel ih =>
    rw [drainBits]
    by_cases h8 : 8 ≤ nbits
    · rw [if_pos h8]
      obtain ⟨q, hq⟩ : ∃ q, nbits / 8 = q + 1 := ⟨nbits / 8 - 1, by omega⟩
      have hq' : (nbits - 8) / 8 = q := by omega
      simp only
      rw [ih (acc / 256) (nbits - 8) (by omega), hq, hq', leBytes, Nat.div_div_eq_div_mul,
        show 8 * (q + 1) = 8 + 8 * q by omega, Nat.pow_add]
      simp; omega
    · have h0 : nbits / 8 = 0 := by omega
      rw [if_neg h8, h0]
      simp [leBytes]; omega

/-- One value's step of Pack in closed form (42_bitpack.md R153). -/
theorem packValue_eq (bw v : Nat) (a : BitAcc) :
    packValue bw v a =
      (leBytes ((a.nbits + bw) / 8) (a.acc ||| (v <<< a.nbits)),
        { acc := (a.acc ||| (v <<< a.nbits)) / 2 ^ (8 * ((a.nbits + bw) / 8)), nbits := (a.nbits + bw) % 8 }) :=
  drainBits_eq _ _ _ (by omega)

/-- A span's end is at or after where it was extended from. -/
theorem le_spanEnd (vs : List Nat) (fuel j : Nat) : j ≤ spanEnd vs fuel j := by
  induction fuel generalizing j with
  | zero => simp [spanEnd]
  | succ fuel ih =>
    rw [spanEnd]
    split
    · exact Nat.le_trans (Nat.le_add_right ..) (ih _)
    · exact Nat.le_refl _

end Sys2Proof.Machine
end

