-- ==== Sys2Proof/Laws/Engine.lean ====
section
/-! SUPPORT. The engine's transitions: each keeps the working state legal and brings the engine nearer to its end, so that
running it with enough fuel does not depend on how much. -/
namespace Sys2Proof.Machine

/-- A run has at least one value. -/
theorem runlen_pos {vs : List Nat} {i : Nat} (h : i < vs.length) : 1 ≤ runlen vs i := by
  unfold runlen
  split
  · next he => simp at he; omega
  · omega

/-- A run ends inside the sequence. -/
theorem add_runlen_le {vs : List Nat} {i : Nat} (h : i ≤ vs.length) : i + runlen vs i ≤ vs.length := by
  unfold runlen
  split
  · omega
  · next v rest he =>
    have hl : (vs.drop i).length = rest.length + 1 := by rw [he]; rfl
    have ht : (rest.takeWhile (fun x => x == v)).length ≤ rest.length :=
      (List.takeWhile_prefix _).length_le
    simp at hl; omega

/-- How far the engine is from its end: a bound on the transitions left. -/
def Work.todo (w : Work) (S : Snapshot) : Nat :=
  match w.scan with
  | .done => 0
  | .scanningRun => 3 * (S.values.length - w.i) + 1
  | .scanningLiteralSpan => 3 * (S.values.length - w.i) - (w.j - w.i)

/-- The working state at START is legal. -/
theorem Work.fresh_legal (S : Snapshot) : Work.fresh.legal S := by
  simp [Work.legal, Work.fresh]

/-- A legal working state is no further from its end than the completion step's fuel reaches. -/
theorem Work.todo_le_fuel (w : Work) (S : Snapshot) : w.todo S ≤ engineFuel S := by
  unfold Work.todo engineFuel
  cases w.scan <;> simp only <;> omega

/-- Everything the engine's next transition can be, with what it does to the dispatcher's state, the cursor and the span. -/
theorem nextAct_cases (S : Snapshot) (w : Work) (k : Nat) (hw : w.legal S) (hn : nextAct S w ≠ .none) :
    let w' := doAct S (nextAct S w) w k
    (S.cmd ≠ .hybrid ∧ w.scan = .scanningRun ∧ w'.scan = .done ∧ w'.i = w.i ∧ w'.j = w.j) ∨
    (S.cmd = .hybrid ∧ w.scan = .scanningRun ∧ w.i < S.values.length ∧ w'.scan = .scanningRun ∧
      8 ≤ runlen S.values w.i ∧ nextAct S w = .emitBlock (runHeader (runlen S.values w.i)) ∧
      w'.i = w.i + runlen S.values w.i ∧ w'.j = w.j) ∨
    (S.cmd = .hybrid ∧ w.scan = .scanningRun ∧ w.i < S.values.length ∧ runlen S.values w.i < 8 ∧
      nextAct S w = .openSpan ∧ w'.scan = .scanningLiteralSpan ∧ w'.i = w.i ∧ w'.j = w.i ∧ w'.out = w.out) ∨
    (S.cmd = .hybrid ∧ w.scan = .scanningRun ∧ w.i = S.values.length ∧ nextAct S w = .stop ∧
      w'.scan = .done ∧ w'.i = w.i ∧ w'.j = w.j ∧ w'.out = w.out) ∨
    (S.cmd = .hybrid ∧ w.scan = .scanningLiteralSpan ∧ w.j < S.values.length ∧ runlen S.values w.j < 8 ∧
      nextAct S w = .extendSpan ∧ w'.scan = .scanningLiteralSpan ∧ w'.i = w.i ∧
      w'.j = w.j + runlen S.values w.j ∧ w'.out = w.out) ∨
    (S.cmd = .hybrid ∧ w.scan = .scanningLiteralSpan ∧ (w.j < S.values.length → 8 ≤ runlen S.values w.j) ∧
      w.i < w.j ∧ nextAct S w = .emitBlock (litHeader (numGroups (slice S.values w.i w.j).length)) ∧
      w'.scan = .scanningRun ∧ w'.i = w.j ∧ w'.j = w.j) := by
  obtain ⟨h1, h2, h3⟩ := hw
  cases hs : w.scan with
  | done => exact absurd (by simp [nextAct, hs]) hn
  | scanningRun =>
    cases hc : S.cmd with
    | varint => simp [nextAct, hs, hc, doAct]
    | run =>
      have ha : nextAct S w = .emitBlock (runHeader S.count.toNat) := by simp [nextAct, hs, hc]
      simp [ha, doAct_runHeader, emitRun, hc, scanAfterBlock, cursorAfter]
    | bitpack =>
      have ha : nextAct S w = .emitBlock (litHeader (numGroups S.values.length)) := by simp [nextAct, hs, hc]
      simp [ha, doAct_litHeader, emitLit, hc, scanAfterBlock, cursorAfter]
    | hybrid =>
      by_cases hi : w.i < S.values.length
      · by_cases hr : 8 ≤ runlen S.values w.i
        · have ha : nextAct S w = .emitBlock (runHeader (runlen S.values w.i)) := by
            simp [nextAct, hs, hc, hi, Config.rleThreshold, hr]
          simp [ha, doAct_runHeader, emitRun, hc, scanAfterBlock, cursorAfter, hi, hr]
        · have ha : nextAct S w = .openSpan := by simp [nextAct, hs, hc, hi, Config.rleThreshold, hr]
          simp [ha, doAct, hi]; omega
      · have ha : nextAct S w = .stop := by simp [nextAct, hs, hc, hi]
        simp [ha, doAct]; omega
  | scanningLiteralSpan =>
    obtain ⟨hc, hi, hij, hj, he⟩ := h2 hs
    by_cases hx : w.j < S.values.length ∧ runlen S.values w.j < 8
    · have ha : nextAct S w = .extendSpan := by simp [nextAct, hs, hc, Config.rleThreshold, hx]
      simp [ha, doAct, hs, hc, hx]
    · have ha : nextAct S w = .emitBlock (litHeader (numGroups (slice S.values w.i w.j).length)) := by
        simp only [nextAct, hs, hc, Config.rleThreshold]
        exact if_neg hx
      have hlt : w.i < w.j := by
        rcases Nat.lt_or_ge w.i w.j with h | h
        · exact h
        · exfalso
          have hji : w.j = w.i := by omega
          have := he hji
          simp only [Config.rleThreshold] at this
          rw [← hji] at this hi
          exact hx ⟨hi, this⟩
      simp [ha, doAct_litHeader, emitLit, hc, scanAfterBlock, cursorAfter, hlt]
      intro hj'
      have : ¬ runlen S.values w.j < 8 := fun h => hx ⟨hj', h⟩
      omega

/-- A transition keeps the working state legal. -/
theorem doAct_legal {S : Snapshot} {w : Work} (k : Nat) (hw : w.legal S) (hn : nextAct S w ≠ .none) :
    (doAct S (nextAct S w) w k).legal S := by
  have hc := nextAct_cases S w k hw hn
  obtain ⟨h1, h2, h3⟩ := hw
  rcases hc with ⟨c, s, s', i, j⟩ | ⟨c, s, hi, s', hr, -, i, j⟩ | ⟨c, s, hi, hr, -, s', i, j, -⟩ |
    ⟨c, s, hi, -, s', i, j, -⟩ | ⟨c, s, hj, hr, -, s', i, j, -⟩ | ⟨c, s, hj, hlt, -, s', i, j⟩
  · refine ⟨by rw [i]; exact h1, by simp [s'], fun _ hh => absurd hh c⟩
  · have := add_runlen_le h1
    exact ⟨by rw [i]; exact this, by simp [s'], by simp [s']⟩
  · refine ⟨by rw [i]; exact h1, fun _ => ⟨c, by rw [i]; exact hi, ?_, ?_, ?_⟩, by simp [s']⟩
    · rw [i, j]
    · rw [j]; exact h1
    · intro _; rw [i]; exact hr
  · exact ⟨by rw [i]; exact h1, by simp [s'], fun _ _ => by rw [i]; exact hi⟩
  · obtain ⟨-, hi, hij, hj', he⟩ := h2 s
    have hp := runlen_pos hj
    refine ⟨by rw [i]; exact h1, fun _ => ⟨c, by rw [i]; exact hi, ?_, ?_, ?_⟩, by simp [s']⟩
    · rw [i, j]; omega
    · rw [j]; exact add_runlen_le hj'
    · rw [i, j]; intro h; omega
  · obtain ⟨-, hi, hij, hj', he⟩ := h2 s
    exact ⟨by rw [i]; exact hj', by simp [s'], by simp [s']⟩

/-- A transition brings the engine nearer to its end. -/
theorem doAct_todo {S : Snapshot} {w : Work} (k : Nat) (hw : w.legal S) (hn : nextAct S w ≠ .none) :
    (doAct S (nextAct S w) w k).todo S < w.todo S := by
  have hc := nextAct_cases S w k hw hn
  obtain ⟨h1, h2, h3⟩ := hw
  unfold Work.todo
  rcases hc with ⟨c, s, s', i, j⟩ | ⟨c, s, hi, s', hr, -, i, j⟩ | ⟨c, s, hi, hr, -, s', i, j, -⟩ |
    ⟨c, s, hi, -, s', i, j, -⟩ | ⟨c, s, hj, hr, -, s', i, j, -⟩ | ⟨c, s, hj, hlt, -, s', i, j⟩
  · simp only [s, s']; omega
  · have := add_runlen_le h1
    simp only [s, s', i]; omega
  · simp only [s, s', i, j]; omega
  · simp only [s, s']; omega
  · obtain ⟨-, hi, hij, hj', he⟩ := h2 s
    have hp := runlen_pos hj
    have := add_runlen_le hj'
    simp only [s, s', i, j]; omega
  · obtain ⟨-, hi, hij, hj', he⟩ := h2 s
    simp only [s, s', i]; omega

/-- One transition of the engine's run. -/
theorem runEngine_succ {S : Snapshot} {w : Work} (f k : Nat) (hn : nextAct S w ≠ .none) :
    runEngine S (f + 1) w k =
      runEngine S f (doAct S (nextAct S w) w k) (drawsAfter k w (doAct S (nextAct S w) w k)) := by
  rw [runEngine]
  split
  · next h => exact absurd h hn
  · rfl

/-- An engine with nothing left to do stays as it is. -/
theorem runEngine_done {S : Snapshot} {w : Work} (f k : Nat) (hn : nextAct S w = .none) :
    runEngine S f w k = (w, k) := by
  cases f <;> simp [runEngine, hn]

/-- With fuel for what is left to do, the engine's run does not depend on the fuel. -/
theorem runEngine_fuel {S : Snapshot} (f g : Nat) (w : Work) (k : Nat) (hw : w.legal S)
    (hf : w.todo S ≤ f) (hg : w.todo S ≤ g) : runEngine S f w k = runEngine S g w k := by
  induction f generalizing g w k with
  | zero =>
    have hn : nextAct S w = .none := by
      false_or_by_contra
      next hn => have := doAct_todo k hw hn; omega
    rw [runEngine_done _ _ hn, runEngine_done _ _ hn]
  | succ f ih =>
    by_cases hn : nextAct S w = .none
    · rw [runEngine_done _ _ hn, runEngine_done _ _ hn]
    · have ht := doAct_todo k hw hn
      cases g with
      | zero => omega
      | succ g =>
        rw [runEngine_succ _ _ hn, runEngine_succ _ _ hn]
        exact ih _ _ _ (doAct_legal k hw hn) (by omega) (by omega)

end Sys2Proof.Machine
end

