-- ==== Sys2Proof/Laws/PerInstr.lean ====
section
/-! SUPPORT. For all instructions: the first word of the encoding matches the instruction's row of spec/opcode_table.json
(30_encoding.md R91, R95). -/
namespace Sys2Proof.Laws.TableRow

/-- A row of the opcode table: how wide its word is in bytes, its mask and its match. -/
structure Row where
  bytes : Nat
  mask : Nat
  value : Nat

/-- The row of each instruction, as the table has it. -/
def row : Instr → Row
  | .varint => { bytes := 4, mask := 0x107, value := 0x100 }
  | .run => { bytes := 4, mask := 0x107, value := 0x101 }
  | .bitpack => { bytes := 4, mask := 0x107, value := 0x102 }
  | .hybrid => { bytes := 4, mask := 0x107, value := 0x103 }
  | .reservedOp4 => { bytes := 4, mask := 0x107, value := 0x104 }
  | .reservedOp5 => { bytes := 4, mask := 0x107, value := 0x105 }
  | .reservedOp6 => { bytes := 4, mask := 0x107, value := 0x106 }
  | .reservedOp7 => { bytes := 4, mask := 0x107, value := 0x107 }
  | .setOp _ => { bytes := 4, mask := 0x100, value := 0x000 }
  | .runBlock _ => { bytes := 1, mask := 0x01, value := 0x00 }
  | .litBlock _ => { bytes := 1, mask := 0x01, value := 0x01 }

/-- The natural of a byte sequence, the first byte lowest. -/
def wordNat : List Byte → Nat
  | [] => 0
  | b :: bs => b.toNat + 256 * wordNat bs

/-- The encoding's first word matches the row. -/
def Statement (i : Instr) : Prop :=
  wordNat ((encode i).take (row i).bytes) &&& (row i).mask = (row i).value

theorem varint : Statement .varint := by unfold Statement; decide
theorem run : Statement .run := by unfold Statement; decide
theorem bitpack : Statement .bitpack := by unfold Statement; decide
theorem hybrid : Statement .hybrid := by unfold Statement; decide
theorem reservedOp4 : Statement .reservedOp4 := by unfold Statement; decide
theorem reservedOp5 : Statement .reservedOp5 := by unfold Statement; decide
theorem reservedOp6 : Statement .reservedOp6 := by unfold Statement; decide
theorem reservedOp7 : Statement .reservedOp7 := by unfold Statement; decide
theorem setOp (op : BitVec 3) : Statement (.setOp op) := by unfold Statement; revert op; decide

/-- The first byte of a VarInt has the integer's bit 0. -/
theorem first_byte (n : Nat) : wordNat ((varInt n).take 1) % 2 = n % 2 := by
  unfold varInt
  cases n with
  | zero => rfl
  | succ n =>
    rw [varIntLoop]
    split <;> simp only [wordNat, List.take_succ_cons, List.take_zero, BitVec.toNat_ofNat] <;> omega

theorem runBlock (c : Nat) : Statement (.runBlock c) := by
  have h := first_byte (2 * c)
  simp only [Statement, encode, row, Nat.and_one_is_mod]
  omega

theorem litBlock (g : Nat) : Statement (.litBlock g) := by
  have h := first_byte (2 * g + 1)
  simp only [Statement, encode, row, Nat.and_one_is_mod]
  omega

end Sys2Proof.Laws.TableRow
end

