-- ==== Sys2Proof/Tests/Slice0.lean ====
section
/-! SUPPORT. The model's own tests, against spec/95_test_vectors.md and the encodings of spec/30_encoding.md, and a witness
for the hypotheses of each statement of Certificates/Slice0/Obligations.lean. -/
namespace Sys2Proof.Tests

open Sys2Proof.Machine

/-! ### WellFormed -/

theorem test_wf_run_count_zero : Instr.wellFormed (.runBlock 0) = false := by decide
theorem test_wf_run_count_large : Instr.wellFormed (.runBlock 4294967296) = false := by decide
theorem test_wf_lit_groups_zero : Instr.wellFormed (.litBlock 0) = false := by decide
theorem test_wf_lit_groups_large : Instr.wellFormed (.litBlock 2049) = false := by decide

/-! ### Decoding: words written out from 30_encoding.md R90, R91 (command words) and R95, R98 (headers) -/

theorem test_decode_varint : decode .command [0x00, 0x01, 0x00, 0x00] = .ok (.varint, []) := by rfl
theorem test_decode_run : decode .command [0x01, 0x01, 0x00, 0x00] = .ok (.run, []) := by rfl
theorem test_decode_bitpack : decode .command [0x02, 0x01, 0x00, 0x00] = .ok (.bitpack, []) := by rfl
theorem test_decode_hybrid : decode .command [0x03, 0x01, 0x00, 0x00] = .ok (.hybrid, []) := by rfl
theorem test_decode_reserved4 : decode .command [0x04, 0x01, 0x00, 0x00] = .ok (.reservedOp4, []) := by rfl
theorem test_decode_reserved5 : decode .command [0x05, 0x01, 0x00, 0x00] = .ok (.reservedOp5, []) := by rfl
theorem test_decode_reserved6 : decode .command [0x06, 0x01, 0x00, 0x00] = .ok (.reservedOp6, []) := by rfl
theorem test_decode_reserved7 : decode .command [0x07, 0x01, 0x00, 0x00] = .ok (.reservedOp7, []) := by rfl
/-- E-13: every ignored bit set, START = 0, OP = 3. -/
theorem test_decode_setOp : decode .command [0xFB, 0xFE, 0xFF, 0xFF] = .ok (.setOp 3, []) := by rfl
/-- R-12: the header of 64 values is `80 01`; its payload follows. -/
theorem test_decode_runBlock : decode .stream [0x80, 0x01, 0x03] = .ok (.runBlock 64, [0x03]) := by
  simp [decode, readVarInt, Instr.ofHeader]
/-- B-16: the header of 8 groups is 17. -/
theorem test_decode_litBlock : decode .stream [0x11, 0xFF] = .ok (.litBlock 8, [0xFF]) := by rfl
theorem test_decode_truncated : decode .command [0x00, 0x01, 0x00] = .error .truncatedCommand := by rfl
theorem test_decode_unterminated : decode .stream [0x80, 0xFF] = .error .unterminatedHeader := by rfl

/-! ### Small states -/

/-- The block with N_MAX = OUT_MAX = 16, as the programs of 95_test_vectors.md section 3 have it, right after reset. -/
def base : State := State.resetWith 16 16

/-- `WRIN k, v` for consecutive words from `k` on, as memory. -/
def inputs : Nat → List Word → Memory → Memory
  | _, [], m => m
  | k, v :: vs, m => inputs (k + 1) vs (Memory.writeBytes m (inAddr k) (bytesOfWord v))

/-- `base` with the inputs loaded, IN_LEN and BIT_WIDTH set. -/
def loaded (bw : Word) (vs : List Word) : State :=
  { base with mem := inputs 0 vs [], inLen := BitVec.ofNat 32 vs.length, bitWidth := bw }

/-- The next state of an outcome. -/
def nextOf : Host.Outcome State Fault Refusal → Option State
  | .next s => some s
  | .fault _ => none
  | .refused _ => none

/-- The stop of an outcome. -/
def faultOf : Host.Outcome State Fault Refusal → Option Fault
  | .next _ => none
  | .fault f => some f
  | .refused _ => none

/-- A command started in `s` and completed. -/
def finished (i : Instr) (s : State) : Option State := (nextOf (exec i s)).bind (fun t => nextOf (complete t))

/-- STATUS, OUT_LEN and the bytes of OUT_MEM below it, as a host may read them. -/
def seen (s : Option State) : Option (Word × Word × List (Option Byte)) :=
  s.map (fun u => (statusWord u, u.outLen, (List.range u.outLen.toNat).map u.outByte))

/-! ### Commands: 95_test_vectors.md -/

/-- V-7 (program P1): 300 gives `AC 02`. -/
theorem test_varint_300 :
    seen (finished .varint { base with arg := 300 }) = some (0x02, 2, [some 0xAC, some 0x02]) := by decide
/-- V-14, V-15: the largest ARG; BIT_WIDTH = 99 is not looked at. -/
theorem test_varint_largest :
    seen (finished .varint { base with arg := 0xFFFFFFFF, bitWidth := 99 }) =
      some (0x02, 5, [some 0xFF, some 0xFF, some 0xFF, some 0xFF, some 0x0F]) := by decide
/-- R-8: little-endian value bytes. -/
theorem test_run_two_bytes :
    seen (finished .run { base with arg := 0x1234, count := 10, bitWidth := 16 }) =
      some (0x02, 3, [some 0x14, some 0x34, some 0x12]) := by decide
/-- R-13: the longest result. -/
theorem test_run_longest :
    seen (finished .run { base with arg := 5, count := 0xFFFFFFFF, bitWidth := 32 }) =
      some (0x02, 9, [some 0xFE, some 0xFF, some 0xFF, some 0xFF, some 0x1F, some 5, some 0, some 0, some 0]) := by
  decide
/-- B-7: nine values, two groups, padding. -/
theorem test_bitpack_two_groups :
    seen (finished .bitpack (loaded 3 [0, 1, 2, 3, 4, 5, 6, 7, 1])) =
      some (0x02, 7, [some 0x05, some 0x88, some 0xC6, some 0xFA, some 0x01, some 0x00, some 0x00]) := by decide
/-- B-25, program P5: 17 bytes into an OUT_MEM of 16. -/
theorem test_bitpack_overflow :
    seen (finished .bitpack (loaded 8 [1, 2, 3, 4, 5, 6, 7, 8, 9, 10, 11, 12, 13, 14, 15, 16])) =
      some (0x52, 16, [some 5, some 1, some 2, some 3, some 4, some 5, some 6, some 7, some 8, some 9, some 10,
        some 11, some 12, some 13, some 14, some 15]) := by decide
/-- H-C1, program P3 part a: the literal span of 3 is padded, then the run of 8. -/
theorem test_hybrid_span_then_run :
    seen (finished .hybrid (loaded 3 [1, 2, 3, 7, 7, 7, 7, 7, 7, 7, 7])) =
      some (0x02, 6, [some 0x03, some 0xD1, some 0x00, some 0x00, some 0x10, some 0x07]) := by decide
/-- H-3, program P2: a run of 7 and a run of 1 are one span. -/
theorem test_hybrid_threshold :
    seen (finished .hybrid (loaded 4 [5, 5, 5, 5, 5, 5, 5, 9])) =
      some (0x02, 5, [some 0x03, some 0x55, some 0x55, some 0x55, some 0x95]) := by decide
/-- E-2: BAD_OP beats BAD_BW. -/
theorem test_reserved4 :
    (nextOf (exec .reservedOp4 { base with bitWidth := 40, outLen := 9 })).map (fun u => (statusWord u, u.outLen)) =
      some (0x12, 0) := by decide
/-- E-1. -/
theorem test_reserved5 : (nextOf (exec .reservedOp5 base)).map statusWord = some 0x12 := by decide
theorem test_reserved6 : (nextOf (exec .reservedOp6 base)).map (fun u => u.op) = some 6 := by decide
theorem test_reserved7 : (nextOf (exec .reservedOp7 base)).map (fun u => u.busy) = some false := by decide
/-- E-12: OP stored, STATUS as it was. -/
theorem test_setOp :
    (nextOf (exec (.setOp 3) { base with done := true, err := .badBw })).map (fun u => (u.op, statusWord u)) =
      some (3, 0x22) := by decide
/-- E-5, E-6, E-7: the order of the checks. -/
theorem test_validation_errors :
    (nextOf (exec .bitpack { base with inLen := 17, bitWidth := 4 })).map statusWord = some 0x32 ∧
    (nextOf (exec .hybrid { base with inLen := 17, bitWidth := 33 })).map statusWord = some 0x22 ∧
    (nextOf (exec .bitpack { base with inLen := 0, bitWidth := 4 })).map statusWord = some 0x42 := by decide

/-! ### Blocks -/

/-- A snapshot of a command over the values `vs` at width `bw`. -/
def snapOf (cmd : Command) (bw : Word) (vs : List Word) : Snapshot :=
  { cmd := cmd, bw := bw, n := BitVec.ofNat 32 vs.length, arg := 5, count := 8, input := vs, unwritten := false }

/-- BUSY with a snapshot and a working state. -/
def busyOn (S : Snapshot) (w : Work) : State := { base with phase := .busy S w }

/-- The output built so far, of the next state. -/
def built (o : Host.Outcome State Fault Refusal) : Option (Work) :=
  (nextOf o).bind (fun u => match u.phase with | .idle => none | .busy _ w => some w)

/-- W2: `RunEnc(5, 8, 4)` is `10 05`. -/
theorem test_runBlock_run :
    built (exec (.runBlock 8) (busyOn (snapOf .run 4 []) Work.fresh)) =
      some { scan := .done, i := 0, j := 0, out := [0x10, 0x05] } := by decide
/-- H-10: the second of two adjacent runs, the cursor passing it. -/
theorem test_runBlock_hybrid :
    built (exec (.runBlock 8) (busyOn (snapOf .hybrid 3 [4, 4, 4, 4, 4, 4, 4, 4, 4, 4, 2, 2, 2, 2, 2, 2, 2, 2])
      { scan := .scanningRun, i := 10, j := 0, out := [0x14, 0x04] })) =
      some { scan := .scanningRun, i := 18, j := 0, out := [0x14, 0x04, 0x10, 0x02] } := by decide
/-- W4: the padding example. -/
theorem test_litBlock_bitpack :
    built (exec (.litBlock 1) (busyOn (snapOf .bitpack 3 [1, 2, 3]) Work.fresh)) =
      some { scan := .done, i := 0, j := 0, out := [0x03, 0xD1, 0x00, 0x00] } := by decide
/-- H-14: the final literal of one value. -/
theorem test_litBlock_hybrid :
    built (exec (.litBlock 1) (busyOn (snapOf .hybrid 2 [1, 1, 2, 2, 2, 2, 2, 2, 2, 2, 3])
      { scan := .scanningLiteralSpan, i := 10, j := 11, out := [] })) =
      some { scan := .scanningRun, i := 11, j := 11, out := [0x03, 0x03, 0x00] } := by decide
/-- A block that is not due stops by name. -/
theorem test_block_not_due :
    faultOf (exec (.runBlock 7) (busyOn (snapOf .run 4 []) Work.fresh)) = some .notEnabled ∧
    faultOf (exec (.litBlock 1) base) = some .notEnabled := by decide

/-! ### The bus -/

/-- Program P1 line 6, a completed stream read as a word: bytes 0 and 1 are the low ones. -/
theorem test_read_output :
    (nextOf (hostRead 4 0x20000 { base with mem := [(0x20000, 0xAC), (0x20001, 0x02), (0x20002, 0), (0x20003, 0)] })).map
      (fun u => u.reply) = some (some 0x000002AC) := by decide
/-- X-9, X-10: the faults of an access. -/
theorem test_access_faults :
    (nextOf (hostRead 4 0x00006 base)).map (fun u => u.faults) = some (FaultSet.none.add .busMisaligned) ∧
    (nextOf (hostWrite 2 0x00008 7 base)).map (fun u => (u.bitWidth, u.faults.busMisaligned)) = some (0, true) ∧
    (nextOf (hostRead 4 0x00024 base)).map (fun u => u.faults) = some (FaultSet.none.add .busUnmapped) ∧
    (nextOf (hostRead 4 0x30000 base)).map (fun u => u.faults) = some (FaultSet.none.add .busUnmapped) := by decide
/-- X-3, X-4: a write while BUSY is ignored. -/
theorem test_busy_write :
    (nextOf (hostWrite 4 0x0C 0 { busyOn (snapOf .run 4 []) Work.fresh with inLen := 8 })).map (fun u => u.inLen) =
      some 8 := by decide
/-- X-12: reset while BUSY. -/
theorem test_reset_busy :
    (nextOf (step { busyOn (snapOf .run 4 []) Work.fresh with pending := [.reset] })).map
      (fun u => (statusWord u, u.phase, u.mem)) = some (0, .idle, []) := by decide
/-- X-8: an unwritten input is a fault recorded at completion, which comes all the same. -/
theorem test_unwritten_input :
    (finished .hybrid { base with inLen := 1, bitWidth := 0 }).map (fun u => u.faults.unwrittenInput) = some true := by
  rfl
/-- The host notation of 30_encoding.md R103. -/
theorem test_notation :
    doRun 200 8 8 0 =
      [.hostWrite 4 0x10 200, .hostWrite 4 0x14 8, .hostWrite 4 0x08 8, .hostWrite 4 0x00 0x101, .wait 0] ∧
    rdout 1 = .hostRead 4 0x20004 := by decide

/-- 30_encoding.md R103: WAIT after a START that failed validation returns at its first read, of STATUS 0x12. -/
theorem test_wait_failed_start :
    (nextOf (step { base with done := true, err := .badOp, pending := [wait 3] })).map (fun t => (t.reply, t.pending)) =
      some (some 0x12, []) := by decide
/-- 30_encoding.md R103: a read with DONE 0 repeats the loop. -/
theorem test_wait_busy :
    (nextOf (step { busyOn (snapOf .run 4 []) Work.fresh with pending := [wait 1] })).map (fun t => (t.reply, t.pending)) =
      some (some 1, [wait 0]) := by decide

/-! ### The first instruction after reset -/

theorem test_fetch_command : (nextOf (step (State.reset.withFetchWord 32 0x102))).isSome = true := by decide
theorem test_fetch_runBlock : (nextOf (step (State.reset.withFetchWord 8 0x00))).isSome = true := by decide
theorem test_fetch_litBlock : (nextOf (step (State.reset.withFetchWord 8 0x01))).isSome = true := by decide

/-! ### Witnesses: for each statement with hypotheses, states and operands that meet them, clause by clause at the
boundaries of its ranges -/

theorem witness_VarIntLength :
    (0 < 2 ^ 0 ∧ ∀ j, 0 < 2 ^ j → 0 ≤ j) ∧ (127 ≤ 127) ∧ (128 ≤ 128 ∧ 16383 ≤ 16383) ∧
    (16384 ≤ 16384 ∧ 2097151 ≤ 2 ^ 21 - 1) ∧ (2 ^ 21 ≤ 2097152 ∧ 2097152 ≤ 2 ^ 28 - 1) ∧
    (2 ^ 28 ≤ 268435456 ∧ 34359738367 ≤ 2 ^ 35 - 1) := by
  refine ⟨⟨by decide, fun _ _ => Nat.zero_le _⟩, ?_⟩
  decide

theorem witness_VarIntClosedForm :
    1 < (varInt 128).length ∧ (1 : Nat) ≠ 0 ∧ varInt 300 = varInt 300 ∧ varInt 300 = varInt 300 ++ [] := by decide

theorem witness_RunEncCases : (0 : Nat) = 0 ∧ (8 : Nat) ≠ 0 ∧ 255 < 2 ^ (8 * ceilDiv 8 8) ∧ 0 < ceilDiv 8 8 := by decide

theorem witness_RunRoundTrip : 0 < 1 ∧ 0 < 2 ^ 0 ∧ 7 < 2 ^ 3 := by decide

theorem witness_AccumulatorBound : (∀ x ∈ [1, 2, 7], x < 2 ^ 3) ∧ 7 < 2 ^ 3 := by decide

theorem witness_BitPack :
    [1, 2, 7] ≠ [] ∧ (∀ x ∈ [1, 2, 7], x < 2 ^ 3) ∧ [0, 0] ≠ [] ∧ (∀ x ∈ [0, 0], x < 2 ^ 0) := by decide

theorem witness_RunLengthLargest :
    1 < [5, 7, 7].length ∧ 1 ≤ 2 ∧ 1 + 2 ≤ [5, 7, 7].length ∧
    (∀ k, 1 ≤ k → k < 1 + 2 → [5, 7, 7][k]? = [5, 7, 7][1]?) := by
  refine ⟨by decide, by decide, by decide, fun k h1 h2 => ?_⟩
  have : k = 1 ∨ k = 2 := by omega
  rcases this with rfl | rfl <;> rfl

theorem witness_PartitionShape :
    partition ([1, 1] ++ List.replicate 8 2 ++ [3]) = [.span [1, 1], .longRun 2 8, .span [3]] ∧
    0 < [1, 1].length ∧ [1, 1].getLast? = some 1 ∧ [3].head? = some 3 := by decide

theorem witness_HybridDecodedForm : ∀ x ∈ [1, 2, 3, 7, 7, 7, 7, 7, 7, 7, 7], x < 2 ^ 3 := by decide

/-- H-13 and H-11: a span of 8 before a run, and a padded span that is last. -/
theorem witness_HybridRoundTrip :
    (∀ x ∈ [1, 2, 1, 2, 1, 2, 1, 2] ++ List.replicate 8 3, x < 2 ^ 2) ∧
    paddingOnlyLast ([1, 2, 1, 2, 1, 2, 1, 2] ++ List.replicate 8 3) = true ∧
    paddingOnlyLast (List.replicate 8 7 ++ [1, 2, 3]) = true := by decide

/-- H-C1: the padding before the run is what the condition rules out, and what a reader obtains is not the input (43_hybrid.md
R190). -/
theorem test_mid_stream_padding :
    paddingOnlyLast ([1, 2, 3] ++ List.replicate 8 7) = false ∧
    (decodedForm ([1, 2, 3] ++ List.replicate 8 7)).take 11 = [1, 2, 3, 0, 0, 0, 0, 0, 7, 7, 7] ∧
    readStream 3 [0x03, 0xD1, 0x00, 0x00, 0x10, 0x07] = some (decodedForm ([1, 2, 3] ++ List.replicate 8 7)) := by
  decide

theorem witness_OpcodeMap :
    (0xFFFFFEF8 ||| 0x100 : Word) &&& 0x107 = 0x100 ∧ (0x107 : Word) &&& 0x107 = 0x107 ∧
    (0xFFFFFEFB : Word) &&& 0x107 = (0x3 : BitVec 3).setWidth 32 ∧
    (0x1F9 : Word) &&& 0x107 = (0x101 : Word) &&& 0x107 := by decide

/-- A command word pending in an IDLE block, and a block due in a BUSY one. -/
theorem witness_StepRunsDecoded :
    { base with pending := [.hostWrite 4 0 0x103] }.pending = .hostWrite 4 (Reg.offset .ctrl) 0x103 :: [] ∧
    decode .command (bytesOfWord 0x103) = .ok (.hybrid, []) ∧ Instr.wellFormed .hybrid = true ∧
    { busyOn (snapOf .run 4 []) Work.fresh with pending := [.work] }.pending = .work :: [] ∧
    nextAct (snapOf .run 4 []) Work.fresh = .emitBlock 16 ∧
    decode .stream (varInt 16) = .ok (.runBlock 8, []) ∧ Instr.wellFormed (.runBlock 8) = true :=
  ⟨rfl, rfl, rfl, rfl, by decide, rfl, rfl⟩

/-- Each kind of event can be next; nothing pending, IDLE and BUSY. -/
theorem witness_StepKinds :
    { base with pending := [.hostRead 4 0] }.pending = .hostRead 4 0 :: [] ∧
    { base with pending := [.hostWrite 4 0 0] }.pending = .hostWrite 4 0 0 :: [] ∧
    { base with pending := [.work] }.pending = .work :: [] ∧
    { base with pending := [.complete] }.pending = .complete :: [] ∧
    { base with pending := [.reset] }.pending = .reset :: [] ∧
    { base with pending := [wait 2] }.pending = .wait 2 :: [] ∧
    base.pending = [] ∧ base.phase = .idle ∧
    (busyOn (snapOf .run 4 []) Work.fresh).pending = [] ∧ (busyOn (snapOf .run 4 []) Work.fresh).busy = true := by decide

/-- BUSY; IDLE with START = 0; IDLE with START = 1, turned away and not. -/
theorem witness_StartEffect :
    (busyOn (snapOf .run 4 []) Work.fresh).busy = true ∧
    base.busy = false ∧ (0x003 : Word).getLsbD 8 = false ∧
    (0x104 : Word).getLsbD 8 = true ∧ validate ((0x104 : Word).extractLsb' 0 3) base ≠ .ok ∧
    (0x100 : Word).getLsbD 8 = true ∧ validate ((0x100 : Word).extractLsb' 0 3) base = .ok := by decide

theorem base_capsLegal : base.capsLegal := by unfold State.capsLegal; decide

theorem witness_VarintResult : base.idle ∧ base.capsLegal := ⟨rfl, base_capsLegal⟩

/-- The largest legal width, and the smallest that is turned away. -/
theorem witness_RunResult :
    { base with bitWidth := 32 }.idle ∧ { base with bitWidth := 32 }.capsLegal ∧
    { base with bitWidth := 32 }.bitWidth.toNat ≤ 32 ∧
    { base with bitWidth := 33 }.idle ∧ { base with bitWidth := 33 }.capsLegal ∧
    32 < { base with bitWidth := 33 }.bitWidth.toNat := ⟨rfl, base_capsLegal, by decide, rfl, base_capsLegal, by decide⟩

/-- BITPACK and HYBRID of three written inputs, HYBRID of none: `BitpackResult`, `HybridResult`, first clause. -/
theorem witness_results_inputs :
    (loaded 3 [1, 2, 3]).idle ∧ (loaded 3 [1, 2, 3]).bitWidth.toNat ≤ 32 ∧ (loaded 3 [1, 2, 3]).inputIs [1, 2, 3] ∧
    ([1, 2, 3] : List Word) ≠ [] ∧ ([1, 2, 3] : List Word).length ≤ (loaded 3 [1, 2, 3]).capIn.toNat ∧
    (loaded 32 []).bitWidth.toNat ≤ 32 ∧ (loaded 32 []).inputIs [] := by
  refine ⟨rfl, by decide, ⟨by decide, ?_⟩, by decide, by decide, by decide, ⟨by decide, fun t h => by simp at h⟩⟩
  decide

/-- The last input unwritten: `BitpackResult`, `HybridResult`, last clause. -/
theorem witness_results_unwritten :
    { base with inLen := 16 }.idle ∧ { base with inLen := 16 }.bitWidth.toNat ≤ 32 ∧
    { base with inLen := 16 }.inLen.toNat ≤ { base with inLen := 16 }.capIn.toNat ∧
    15 < { base with inLen := 16 }.inLen.toNat ∧ inWord { base with inLen := 16 }.mem 15 = none :=
  ⟨rfl, by decide, by decide, by decide, by decide⟩

/-- Width 33; length N_MAX + 1; length 0: `BitpackResult`, `HybridResult`, the clauses between. An IDLE state is all that
`ReservedResult` and `SetOpResult` ask for. -/
theorem witness_results_turned_away :
    base.idle ∧ ({ base with bitWidth := 33 }.idle ∧ 32 < { base with bitWidth := 33 }.bitWidth.toNat) ∧
    ({ base with inLen := 17 }.idle ∧ { base with inLen := 17 }.bitWidth.toNat ≤ 32 ∧
      { base with inLen := 17 }.capIn.toNat < { base with inLen := 17 }.inLen.toNat) ∧
    (base.bitWidth.toNat ≤ 32 ∧ base.inLen.toNat = 0) :=
  ⟨rfl, ⟨rfl, by decide⟩, ⟨rfl, by decide, by decide⟩, by decide, by decide⟩

/-- A CTRL write that starts, and SET_OP; a block of each kind. -/
theorem witness_frames :
    Instr.space .varint = .command ∧ (nextOf (exec .varint base)).isSome = true ∧
    Instr.space (.setOp 2) = .command ∧ (nextOf (exec (.setOp 2) base)).isSome = true ∧
    Instr.space (.runBlock 8) = .stream ∧
    (nextOf (exec (.runBlock 8) (busyOn (snapOf .run 4 []) Work.fresh))).isSome = true ∧
    Instr.space (.litBlock 1) = .stream ∧
    (nextOf (exec (.litBlock 1) (busyOn (snapOf .bitpack 3 [1, 2, 3]) Work.fresh))).isSome = true := by decide

/-- RUN's block, and a run of exactly 8 at HYBRID's cursor. -/
theorem witness_RunBlockEmits :
    (busyOn (snapOf .run 4 []) Work.fresh).phase = .busy (snapOf .run 4 []) Work.fresh ∧
    Work.fresh.scan = .scanningRun ∧ (snapOf .run 4 []).cmd = .run ∧ 8 = (snapOf .run 4 []).count.toNat ∧
    (snapOf .hybrid 4 [5, 5, 5, 5, 5, 5, 5, 5]).cmd = .hybrid ∧
    Work.fresh.i < (snapOf .hybrid 4 [5, 5, 5, 5, 5, 5, 5, 5]).values.length ∧
    8 ≤ runlen (snapOf .hybrid 4 [5, 5, 5, 5, 5, 5, 5, 5]).values Work.fresh.i := by decide

/-- HYBRID's span at the end of the input, and one that a run of 8 ends. -/
theorem witness_LitBlockEmits :
    (snapOf .bitpack 3 [1, 2, 3]).cmd = .bitpack ∧ 1 = numGroups (snapOf .bitpack 3 [1, 2, 3]).values.length ∧
    (snapOf .hybrid 3 [1, 7, 7, 7, 7, 7, 7, 7, 7]).cmd = .hybrid ∧
    (1 < (snapOf .hybrid 3 [1, 7, 7, 7, 7, 7, 7, 7, 7]).values.length →
      8 ≤ runlen (snapOf .hybrid 3 [1, 7, 7, 7, 7, 7, 7, 7, 7]).values 1) ∧
    1 = numGroups (slice (snapOf .hybrid 3 [1, 7, 7, 7, 7, 7, 7, 7, 7]).values 0 1).length ∧
    ¬ (3 < (snapOf .hybrid 3 [1, 2, 3]).values.length) := by decide

theorem witness_BlockNotDue :
    base.idle ∧ nextAct (snapOf .run 4 []) Work.fresh ≠ .emitBlock (runHeader 7) ∧
    nextAct (snapOf .run 4 []) Work.fresh ≠ .emitBlock (litHeader 1) := ⟨rfl, by decide, by decide⟩

theorem witness_CompletionEffect :
    (busyOn (snapOf .hybrid 3 [1, 2, 3]) Work.fresh).phase = .busy (snapOf .hybrid 3 [1, 2, 3]) Work.fresh := rfl

/-- A BUSY state that meets the invariant, with a literal block due: BITPACK of one written input. -/
def busyBitpack : State :=
  { loaded 3 [5] with op := 2, phase := .busy (snapshot .bitpack (loaded 3 [5])) Work.fresh }

theorem base_inv : base.Inv where
  caps := base_capsLegal
  status := by unfold State.statusLegal; decide
  outLen := by unfold State.outLenLegal; decide
  mem := ⟨List.Pairwise.nil, fun c h => absurd h (List.not_mem_nil)⟩
  words := fun _ _ _ _ => rfl
  engine := fun S w h => by simp [base, State.resetWith] at h

theorem busyBitpack_inv : busyBitpack.Inv where
  caps := base_capsLegal
  status := by unfold State.statusLegal; decide
  outLen := by unfold State.outLenLegal; decide
  mem := by unfold State.memLegal State.inRegion State.outRegion; decide
  words := by
    intro k t hk ht
    have hm : busyBitpack.mem = Memory.writeBytes [] (inAddr 0) (bytesOfWord 5) := rfl
    rw [hm]
    cases k with
    | zero =>
      have h0 := Memory.read_writeBytes_at (bytesOfWord 5) [] (inAddr 0) 0 (by decide)
      rw [Nat.add_zero] at h0
      rw [Memory.read_writeBytes_at _ _ _ _ (by rw [bytesOfWord_length]; exact ht), h0]
      have : t = 0 ∨ t = 1 ∨ t = 2 ∨ t = 3 := by omega
      rcases this with rfl | rfl | rfl | rfl <;> rfl
    | succ k =>
      rw [Memory.read_writeBytes_out _ _ _ _ (by rw [bytesOfWord_length]; unfold inAddr; omega),
        Memory.read_writeBytes_out _ _ _ _ (by rw [bytesOfWord_length]; unfold inAddr; omega)]
      rfl
  engine := by
    intro S w h
    obtain ⟨rfl, rfl⟩ : snapshot .bitpack (loaded 3 [5]) = S ∧ Work.fresh = w := by
      have : Phase.busy (snapshot .bitpack (loaded 3 [5])) Work.fresh = .busy S w := h
      exact ⟨(Phase.busy.inj this).1, (Phase.busy.inj this).2⟩
    refine ⟨⟨by decide, by decide, rfl, rfl, rfl, rfl, by decide, ?_, by decide⟩, Work.fresh_legal _⟩
    intro t ht w hw
    have h1 : inputCount (snapshot .bitpack (loaded 3 [5])).cmd busyBitpack = 1 := by decide
    obtain rfl : t = 0 := by omega
    have h5 : inWord busyBitpack.mem 0 = some 5 := by decide
    rw [h5] at hw
    obtain rfl := Option.some.inj hw
    decide

theorem witness_InvariantKept : base.Inv ∧ step base = .next base := ⟨base_inv, rfl⟩

theorem witness_WorkThenComplete :
    busyBitpack.Inv ∧ (nextOf (engineWork busyBitpack)).isSome = true := ⟨busyBitpack_inv, by decide⟩

theorem witness_SpanNeverEmpty :
    busyBitpack.Inv ∧ busyBitpack.phase = .busy (snapshot .bitpack (loaded 3 [5])) Work.fresh ∧
    nextAct (snapshot .bitpack (loaded 3 [5])) Work.fresh = .emitBlock (litHeader 1) :=
  ⟨busyBitpack_inv, rfl, by decide⟩

/-- The first and the last word of each region, IDLE and BUSY. -/
theorem witness_regions :
    base.busy = false ∧ base.capsLegal ∧ 0 < base.capIn.toNat ∧ 15 < base.capIn.toNat ∧
    4 * 0 < base.capOut.toNat ∧ 4 * 3 < base.capOut.toNat ∧
    busyBitpack.busy = true ∧ busyBitpack.capsLegal ∧ 15 < busyBitpack.capIn.toNat ∧
    inWord busyBitpack.mem 0 = some 5 ∧
    (loaded 3 [5]).outByte 0 = none ∧ { base with mem := [(0x2000F, 7)] }.outByte (4 * 3 + 3) = some 7 :=
  ⟨by decide, base_capsLegal, by decide, by decide, by decide, by decide, by decide, base_capsLegal, by decide,
    by decide, by decide, by decide⟩

/-- A narrow access, and each misaligned residue; the first and last unmapped offsets between the regions, and beyond. -/
theorem witness_access_faults :
    ((2 : Nat) ≠ 4) ∧ (0x10001 % 4 ≠ 0) ∧ (0x10003 % 4 ≠ 0) ∧
    (0x24 % 4 = 0 ∧ 0x24 ≤ 0x24 ∧ 0x24 < 0x10000) ∧ (0xFFFC % 4 = 0 ∧ 0xFFFC < 0x10000) ∧
    (0x10040 % 4 = 0 ∧ 0x10000 + 4 * base.capIn.toNat ≤ 0x10040 ∧ 0x1FFFC < 0x20000) ∧
    (0x20010 % 4 = 0 ∧ 0x20000 + base.capOut.toNat ≤ 0x20010) ∧ base.capsLegal :=
  ⟨by decide, by decide, by decide, by decide, by decide, by decide, by decide, base_capsLegal⟩

theorem witness_ResetEffect :
    { busyBitpack with pending := [.reset] }.pending = .reset :: [] ∧
    (nextOf (step { busyBitpack with pending := [.reset] })).isSome = true := by decide

/-- A START leaves IDLE, a completion and a reset leave BUSY, and each changes STATUS. -/
theorem witness_transitions :
    base.busy = false ∧
    (nextOf (step { base with pending := [.hostWrite 4 0 0x100] })).map (fun t => (t.busy, statusWord t)) =
      some (true, 1) ∧
    busyBitpack.busy = true ∧
    (nextOf (step busyBitpack)).map (fun t => (t.busy, statusWord t)) = some (false, 2) ∧
    (nextOf (step { busyBitpack with pending := [.reset] })).map (fun t => (t.busy, statusWord t)) = some (false, 0) := by
  decide

/-- While BUSY a host write is one step that is neither reset nor completion, and completion is one that is not reset. -/
theorem witness_BusyFreezesOperands :
    busyBitpack.capsLegal ∧ busyBitpack.busy = true ∧
    step { busyBitpack with pending := [.hostWrite 4 0x0C 0] } = .next busyBitpack ∧
    ¬ { busyBitpack with pending := [.hostWrite 4 0x0C 0] }.nextResets ∧
    ¬ { busyBitpack with pending := [.hostWrite 4 0x0C 0] }.nextCompletes ∧
    (nextOf (step busyBitpack)).isSome = true ∧ ¬ busyBitpack.nextResets := by
  refine ⟨base_capsLegal, by decide, by rfl, ?_, ?_, by decide, ?_⟩
  · rintro ⟨rest, h⟩; simp at h
  · rintro ⟨-, h | ⟨rest, h⟩ | ⟨rest, h⟩⟩ <;> simp at h
  · rintro ⟨rest, h⟩; simp [busyBitpack, loaded, base, State.resetWith] at h

/-- A byte of OUT_MEM and OUT_LEN that a completion changes, OUT_LEN that a validation error changes, a byte of IN_MEM that
a host write changes. -/
theorem witness_MemoryWriters :
    base.capsLegal ∧
    (nextOf (step busyBitpack)).map (fun t => (t.outByte 0, t.outLen)) = some (some 3, 4) ∧
    busyBitpack.outByte 0 = none ∧ busyBitpack.outLen = 0 ∧
    (nextOf (step { base with outLen := 4, pending := [.hostWrite 4 0 0x104] })).map (fun t => t.outLen) = some 0 ∧
    (nextOf (step { base with pending := [.hostWrite 4 (inAddr 15) 9] })).map (fun t => t.mem.read (inAddr 15 + 3)) =
      some (some 0) ∧ base.mem.read (inAddr 15 + 3) = none ∧ 15 < base.capIn.toNat ∧ 3 < 4 :=
  ⟨base_capsLegal, by decide, by decide, by decide, by decide, by decide, by decide, by decide, by decide⟩

/-- A fault recorded and kept, an access that adds each of the bus faults to an empty set, and an unwritten input recorded by a completion. -/
theorem witness_FaultSetGrows :
    FaultSet.none.has .unwrittenInput = false ∧
    (nextOf (step { base with pending := [.hostRead 2 0] })).map (fun t => t.faults.has .busMisaligned) = some true ∧
    base.faults.has .busMisaligned = false ∧
    (nextOf (step { base with pending := [.hostWrite 4 0x24 0] })).map (fun t => t.faults.has .busUnmapped) = some true ∧
    base.faults.has .busUnmapped = false ∧ (FaultSet.none.add .busUnmapped).has .busUnmapped = true ∧
    (nextOf (step (busyOn { snapOf .bitpack 0 [0] with unwritten := true } Work.fresh))).map
      (fun t => t.faults.has .unwrittenInput) = some true ∧
    ¬ (busyOn { snapOf .bitpack 0 [0] with unwritten := true } Work.fresh).nextResets := by
  refine ⟨by decide, by decide, by decide, by decide, by decide, by decide, by decide, ?_⟩
  rintro ⟨rest, h⟩; simp [busyOn, base, State.resetWith] at h

/-- Each case of WAIT: DONE, a START that fails, BUSY with polls left and with none, IDLE and not DONE. -/
theorem witness_WaitReturns :
    ({ base with done := true, pending := [wait 3] }.pending = wait 3 :: [] ∧ base.busy = false) ∧
    ({ base with bitWidth := 33, pending := [startCmd .run, wait 0] }.pending = startCmd .run :: wait 0 :: [] ∧
      validate Command.run.code { base with bitWidth := 33, pending := [startCmd .run, wait 0] } ≠ .ok) ∧
    ({ busyBitpack with pending := [wait (2 + 1)] }.pending = wait (2 + 1) :: [] ∧ busyBitpack.done = false) ∧
    ({ busyBitpack with pending := [wait 0] }.pending = wait 0 :: [] ∧ busyBitpack.busy = true) ∧
    ({ base with pending := [wait 0] }.pending = wait 0 :: [] ∧ base.done = false) := by decide

/-- Two states that agree on a command's operands and differ elsewhere. -/
theorem witness_ResultReadsOperandsOnly :
    { base with count := 7 }.arg = base.arg ∧ { base with inLen := 7 }.count = base.count ∧
    { base with inLen := 7 }.bitWidth = base.bitWidth ∧ (loaded 3 [1]).inputIs [1] ∧
    { loaded 3 [1] with arg := 9 }.inputIs [1] ∧ { loaded 3 [1] with arg := 9 }.bitWidth = (loaded 3 [1]).bitWidth :=
  ⟨by decide, by decide, by decide, ⟨by decide, by decide⟩, ⟨by decide, by decide⟩, by decide⟩

end Sys2Proof.Tests
end

/-! PROOFS. Every step keeps the invariant of the block (O51): one lemma per part of the invariant that an operation
touches, one lemma per operation, assembled over `step_inversion`. -/
namespace Sys2Proof.Machine

/-! ### Memory -/

/-- A byte is written after a sequence was stored where it lies in the sequence or was written before. -/
theorem Memory.isSome_read_writeBytes (bs : List Byte) (m : Memory) (a x : Nat) :
    ((m.writeBytes a bs).read x).isSome = (decide (a ≤ x ∧ x < a + bs.length) || (m.read x).isSome) := by
  rw [Memory.read_writeBytes]
  by_cases h : a ≤ x ∧ x < a + bs.length
  · have hx : x - a < bs.length := by omega
    simp [h, hx]
  · simp [h]

/-- Bytes stored inside IN_MEM and OUT_MEM leave memory canonical and inside them. -/
theorem State.memLegal_writeBytes {s : State} (h : s.memLegal) {a : Nat} {bs : List Byte}
    (hr : ∀ x, a ≤ x → x < a + bs.length → s.inRegion x ∨ s.outRegion x) :
    State.memLegal { s with mem := s.mem.writeBytes a bs } := by
  obtain ⟨hwf, hin⟩ := h
  refine ⟨Memory.writeBytes_wf bs a hwf, fun c hc => ?_⟩
  rcases Memory.mem_writeBytes hc with ⟨hlo, hhi⟩ | hold
  · exact hr c.1 hlo hhi
  · exact hin c hold

/-- Bytes stored over no IN_MEM word in part leave every IN_MEM word written whole. -/
theorem State.wordsWhole_writeBytes {s : State} (h : s.wordsWhole) {a : Nat} {bs : List Byte}
    (hw : ∀ k t, k < s.capIn.toNat → t < 4 →
      (a ≤ inAddr k + t ∧ inAddr k + t < a + bs.length ↔ a ≤ inAddr k ∧ inAddr k < a + bs.length)) :
    State.wordsWhole { s with mem := s.mem.writeBytes a bs } := by
  intro k t hk ht
  simp only [Memory.isSome_read_writeBytes, decide_eq_decide.2 (hw k t hk ht), h k t hk ht]

/-! ### STATUS and the engine -/

/-- An IDLE block that is DONE may hold any ERR (10_state.md R23). -/
theorem State.statusLegal_of_done {s : State} (hb : s.busy = false) (hd : s.done = true) : s.statusLegal := by
  simp [State.statusLegal, hb, hd]

/-- An IDLE engine has no snapshot and no working state. -/
theorem State.engineLegal_of_idle {s : State} (hb : s.busy = false) : s.engineLegal := by
  intro S w hp
  rw [s.busy_of_phase_busy hp] at hb
  cases hb

/-- A BUSY engine is legal where its one snapshot is live and its one working state legal. -/
theorem State.engineLegal_of_busy {s : State} {S : Snapshot} {w : Work} (hp : s.phase = .busy S w)
    (hS : S.live s) (hw : w.legal S) : s.engineLegal := by
  intro S' w' hp'
  cases hp.symm.trans hp'
  exact ⟨hS, hw⟩

/-- A launch leaves IN_LEN, and with it how many words a command reads. -/
@[simp] theorem inputCount_launch (cmd : Command) (op : BitVec 3) (S : Snapshot) (n : Nat) (s : State) :
    inputCount cmd (s.launch op S n) = inputCount cmd s := rfl

/-- The snapshot a START takes is live in the state it launches (10_state.md R35). -/
theorem snapshot_live_launch {op : BitVec 3} {s : State} (n : Nat) (hv : validate op s = .ok) :
    (snapshot (commandOf op) s).live (s.launch op (snapshot (commandOf op) s) n) := by
  refine ⟨hv, rfl, rfl, rfl, rfl, rfl, ?_, ?_, rfl⟩
  · simp [snapshot]
  · intro t ht w hw
    rw [snapshot_cmd, inputCount_launch] at ht
    have hword : engineWord s t = w := by simp [engineWord, show inWord s.mem t = some w from hw]
    simp [snapshot, ht, hword]

/-! ### One lemma per operation -/

section
variable {s : State} (h : s.Inv)
include h

/-- What is pending is no part of the invariant. -/
theorem State.Inv.withPending (rest : List Event) : (s.withPending rest).Inv :=
  ⟨h.caps, h.status, h.outLen, h.mem, h.words, h.engine⟩

/-- What the host read is no part of the invariant. -/
theorem State.Inv.answer (v : Word) (n : Nat) : (s.answer v n).Inv :=
  ⟨h.caps, h.status, h.outLen, h.mem, h.words, h.engine⟩

/-- The fault set is no part of the invariant. -/
theorem State.Inv.recordFault (r : FaultReason) : (s.recordFault r).Inv :=
  ⟨h.caps, h.status, h.outLen, h.mem, h.words, h.engine⟩

theorem State.Inv.setBitWidth (hb : s.busy = false) (v : Word) : (s.setBitWidth v).Inv :=
  ⟨h.caps, h.status, h.outLen, h.mem, h.words, engineLegal_of_idle hb⟩

theorem State.Inv.setInLen (hb : s.busy = false) (v : Word) : (s.setInLen v).Inv :=
  ⟨h.caps, h.status, h.outLen, h.mem, h.words, engineLegal_of_idle hb⟩

theorem State.Inv.setArg (hb : s.busy = false) (v : Word) : (s.setArg v).Inv :=
  ⟨h.caps, h.status, h.outLen, h.mem, h.words, engineLegal_of_idle hb⟩

theorem State.Inv.setCount (hb : s.busy = false) (v : Word) : (s.setCount v).Inv :=
  ⟨h.caps, h.status, h.outLen, h.mem, h.words, engineLegal_of_idle hb⟩

theorem State.Inv.storeOp (hb : s.busy = false) (op : BitVec 3) : (s.storeOp op).Inv :=
  ⟨h.caps, h.status, h.outLen, h.mem, h.words, engineLegal_of_idle hb⟩

/-- An aligned store in IN_MEM covers one whole word of it (20_memory.md R62, R64). -/
theorem State.Inv.storeWord (hb : s.busy = false) {a : Nat} (ha : a % 4 = 0) (hl : locate s a = .inMem) (v : Word) :
    (s.storeWord a v).Inv := by
  obtain ⟨hlo, hhi⟩ := inRegion_of_locate hl
  have hmem : (s.storeWord a v).memLegal := by
    refine State.memLegal_writeBytes h.mem fun x hx hx' => .inl ⟨by omega, ?_⟩
    rw [bytesOfWord_length] at hx'
    omega
  have hwords : (s.storeWord a v).wordsWhole := by
    refine State.wordsWhole_writeBytes h.words fun k t _ ht => ?_
    have := inAddr_aligned k
    rw [bytesOfWord_length]
    omega
  exact ⟨h.caps, h.status, h.outLen, hmem, hwords, engineLegal_of_idle hb⟩

/-- A validation error sets DONE and OUT_LEN 0 and leaves the engine IDLE (60_exceptions.md R213). -/
theorem State.Inv.report (hb : s.busy = false) (op : BitVec 3) (code : Err) : (s.report op code).Inv :=
  ⟨h.caps, statusLegal_of_done hb rfl, Nat.zero_le _, h.mem, h.words, engineLegal_of_idle hb⟩

/-- A launch clears DONE and ERR, with a live snapshot and a fresh working state (30_encoding.md R93). -/
theorem State.Inv.launch {op : BitVec 3} (hv : validate op s = .ok) (n : Nat) :
    (s.launch op (snapshot (commandOf op) s) n).Inv :=
  ⟨h.caps, ⟨fun _ => rfl, fun _ => rfl⟩, h.outLen, h.mem, h.words,
    engineLegal_of_busy rfl (snapshot_live_launch n hv) (Work.fresh_legal _)⟩

theorem State.Inv.start (op : BitVec 3) : (start op s).Inv := by
  rcases start_cases op s with ⟨-, hs⟩ | ⟨hb, -, hs⟩ | ⟨-, hv, hs⟩ <;> rw [hs]
  · exact h
  · exact h.report hb op _
  · exact h.launch hv _

/-- A transition of the engine changes the working state only, and keeps it legal. -/
theorem State.Inv.withWork {S : Snapshot} {w : Work} (hp : s.phase = .busy S w) (hn : nextAct S w ≠ .none)
    (k n : Nat) : (s.withWork S (doAct S (nextAct S w) w k) n).Inv := by
  obtain ⟨hS, hw⟩ := h.engine S w hp
  obtain ⟨hdone, herr⟩ := h.status
  exact ⟨h.caps, ⟨fun _ => hdone (s.busy_of_phase_busy hp), herr⟩, h.outLen, h.mem, h.words,
    engineLegal_of_busy rfl hS (doAct_legal k hw hn)⟩

/-- The completion step writes at most OUT_MAX bytes from the start of OUT_MEM, past IN_MEM (10_state.md R42). -/
theorem State.Inv.commit (e : List Byte) (u : Bool) (n : Nat) : (s.commit e u n).Inv := by
  have hlen : (e.take s.capOut.toNat).length ≤ s.capOut.toNat := List.length_take_le ..
  have hmem : (s.commit e u n).memLegal :=
    State.memLegal_writeBytes h.mem fun x hx hx' => .inr ⟨hx, by unfold outAddr at hx'; omega⟩
  have hwords : (s.commit e u n).wordsWhole := by
    obtain ⟨-, hcap, -⟩ := h.caps
    refine State.wordsWhole_writeBytes h.words fun k t hk ht => ?_
    unfold inAddr outAddr
    omega
  have hout : (s.commit e u n).outLenLegal := by
    rw [State.outLenLegal, State.commit_outLen, State.commit_capOut, BitVec.toNat_ofNat]
    exact Nat.le_trans (Nat.mod_le ..) (Nat.min_le_right ..)
  exact ⟨h.caps, statusLegal_of_done rfl rfl, hout, hmem, hwords, engineLegal_of_idle rfl⟩

/-- Reset clears all but the capacities (70_reset_and_hazards.md R240). -/
theorem State.Inv.toReset : s.toReset.Inv :=
  ⟨h.caps, ⟨fun _ => rfl, fun _ => rfl⟩, Nat.zero_le _, ⟨List.Pairwise.nil, fun _ hc => nomatch hc⟩,
    fun _ _ _ _ => rfl, engineLegal_of_idle rfl⟩

end

/-! ### Every step -/

/-- Settles O51: each thing a step can do (`step_inversion`) is an operation that keeps the invariant. -/
theorem invariantKept : Obligations.InvariantKept := by
  intro s t h hstep
  have hr : ∀ rest, (s.withPending rest).Inv := h.withPending
  rcases step_inversion hstep with ⟨-, rfl⟩ | ⟨-, rest, rfl⟩ | ⟨-, rest, S, w, -, rfl⟩ |
    ⟨rest, S, w, -, hp, hn, rfl⟩ | ⟨_, _, v, rest, -, rfl⟩ | ⟨_, _, rest, v, n, -, hread⟩ |
    ⟨_, _, _, rest, -, hwrite⟩ | ⟨a, d, rest, hb, ha, -, hwrite⟩
  · exact h
  · exact (hr rest).toReset
  · exact (hr rest).commit ..
  · exact (hr rest).withWork hp hn ..
  · exact (h.answer v 0).withPending rest
  · rcases hread with rfl | ⟨r, -, rfl⟩
    · exact (hr rest).answer v n
    · exact ((hr rest).recordFault r).answer v n
  · rcases hwrite with rfl | ⟨r, -, rfl⟩
    · exact hr rest
    · exact (hr rest).recordFault r
  · rcases hwrite with rfl | rfl | rfl | rfl | ⟨hl, rfl⟩ | ⟨-, -, rfl⟩ | ⟨-, -, rfl⟩
    · exact (hr rest).setBitWidth hb d
    · exact (hr rest).setInLen hb d
    · exact (hr rest).setArg hb d
    · exact (hr rest).setCount hb d
    · exact (hr rest).storeWord hb ha hl d
    · exact (hr rest).storeOp hb _
    · exact (hr rest).start _

end Sys2Proof.Machine

/-! PROOFS. The engine, its steps and the registers of 10_state.md. -/
namespace Sys2Proof.Machine

/-! ### Working steps and the completion step -/

/-- What the completion step writes into a block does not depend on the working state it had. -/
@[simp] theorem State.commit_withWork (s : State) (S : Snapshot) (w : Work) (n : Nat) (e : List Byte) (u : Bool) (k : Nat) :
    (s.withWork S w n).commit e u k = s.commit e u k := rfl

/-- A BUSY engine's completion step is answered. -/
theorem complete_busy {s : State} {S : Snapshot} {w : Work} (hp : s.phase = .busy S w) :
    complete s = .next
      (s.commit (runEngine S (engineFuel S) w s.draws).1.out S.unwritten (runEngine S (engineFuel S) w s.draws).2) := by
  simp [complete, hp]

/-- The engine's run may take its first transition before it: what is left to do needs less than the full fuel. -/
theorem runEngine_doAct {S : Snapshot} {w : Work} (k : Nat) (hw : w.legal S) (hn : nextAct S w ≠ .none) :
    runEngine S (engineFuel S) (doAct S (nextAct S w) w k) (drawsAfter k w (doAct S (nextAct S w) w k)) =
      runEngine S (engineFuel S) w k := by
  have hfuel := w.todo_le_fuel S
  rw [runEngine_fuel (engineFuel S) (engineFuel S + 1) w k hw hfuel (by omega), runEngine_succ _ _ hn]

/-- Settles O39: the completion step runs on from where the working step left the engine. -/
theorem workThenComplete : Obligations.WorkThenComplete := by
  intro s t hinv hwork
  obtain ⟨S, w, hp, hn, rfl⟩ := engineWork_next hwork
  obtain ⟨-, hw⟩ := hinv.engine S w hp
  refine ⟨_, complete_busy (State.withWork_phase ..), ?_⟩
  rw [complete_busy hp, State.withWork_draws, runEngine_doAct _ hw hn, State.commit_withWork]

/-! ### The stream blocks -/

/-- STATUS reads the same where BUSY, DONE and ERR are the same (10_state.md R23). -/
theorem statusWord_congr {s t : State} (hb : t.busy = s.busy) (hd : t.done = s.done) (he : t.err = s.err) :
    statusWord t = statusWord s := by
  simp [statusWord, hb, hd, he]

/-- A new working state of a BUSY engine changes nothing a host can see. -/
theorem State.sameBlock_withWork {s : State} (hb : s.busy = true) (S : Snapshot) (w : Work) (n : Nat) :
    s.SameBlock (s.withWork S w n) where
  op := rfl
  bitWidth := rfl
  inLen := rfl
  arg := rfl
  count := rfl
  outLen := rfl
  capIn := rfl
  capOut := rfl
  status := statusWord_congr hb.symm rfl rfl
  memory _ := rfl
  faults := rfl

/-- A stream block that is executed gives a BUSY engine a new working state. -/
theorem exec_stream_next {i : Instr} {s t : State} (hi : i.space = .stream) (h : exec i s = .next t) :
    ∃ S w w', s.phase = .busy S w ∧ t = s.withWork S w' (drawsAfter s.draws w w') := by
  cases i with
  | runBlock c =>
    obtain ⟨S, w, hp, -, ht⟩ := execRunBlock_next h
    exact ⟨S, w, _, hp, ht⟩
  | litBlock g =>
    obtain ⟨S, w, hp, -, ht⟩ := execLitBlock_next h
    exact ⟨S, w, _, hp, ht⟩
  | _ => cases hi

/-- Settles O36: a stream block is a new working state of a BUSY engine, and nothing else. -/
theorem blockFrame : Obligations.BlockFrame := by
  intro s t i hi h
  obtain ⟨S, w, w', hp, rfl⟩ := exec_stream_next hi h
  exact ⟨s.sameBlock_withWork (s.busy_of_phase_busy hp) S w' _, rfl, rfl, S, w, w', hp, rfl, Nat.le_add_right ..⟩

end Sys2Proof.Machine

/-! PROOFS. The engine's transitions build `E(S)` (43_hybrid.md R186 against R181), so the completion step leaves it. -/
namespace Sys2Proof.Machine

/-! ### The loops of `Hybrid`, turn by turn -/

/-- A span ends at a long run and at the end of the sequence (43_hybrid.md R181, step 3). -/
theorem spanEnd_stop {vs : List Nat} {j : Nat} (h : j < vs.length → 8 ≤ runlen vs j) (f : Nat) :
    spanEnd vs f j = j := by
  cases f with
  | zero => rfl
  | succ f => exact if_neg fun ⟨hj, hr⟩ => absurd (h hj) (Nat.not_le.2 hr)

/-- Extending a span does not depend on the fuel, where that reaches the end of the sequence. -/
theorem spanEnd_fuel {vs : List Nat} (f g j : Nat) (hf : vs.length - j ≤ f) (hg : vs.length - j ≤ g) :
    spanEnd vs f j = spanEnd vs g j := by
  induction f generalizing g j with
  | zero =>
    have hj : j < vs.length → 8 ≤ runlen vs j := by omega
    rw [spanEnd_stop hj, spanEnd_stop hj]
  | succ f ih =>
    by_cases hj : j < vs.length ∧ runlen vs j < 8
    · obtain ⟨g, rfl⟩ : ∃ g', g = g' + 1 := ⟨g - 1, by omega⟩
      have := runlen_pos hj.1
      rw [spanEnd, spanEnd, if_pos hj, if_pos hj]
      exact ih g _ (by omega) (by omega)
    · rw [spanEnd_stop (by omega), spanEnd_stop (by omega)]

/-- A short run is absorbed into the span before it (43_hybrid.md R181, step 3). -/
theorem spanEnd_extend {vs : List Nat} {j : Nat} (hj : j < vs.length) (hr : runlen vs j < 8) :
    spanEnd vs vs.length j = spanEnd vs vs.length (j + runlen vs j) := by
  rw [spanEnd_fuel vs.length (vs.length + 1) j (by omega) (by omega), spanEnd, if_pos ⟨hj, hr⟩]

/-- A span that is opened absorbs at least its first run. -/
theorem lt_spanEnd {vs : List Nat} {i : Nat} (hi : i < vs.length) (hr : runlen vs i < 8) :
    i < spanEnd vs vs.length i := by
  have := runlen_pos hi
  have := le_spanEnd vs vs.length (i + runlen vs i)
  rw [spanEnd_extend hi hr]
  omega

/-- `Hybrid` at the end of the sequence has built its output (43_hybrid.md R181). -/
theorem hybridLoop_end {vs : List Nat} {i : Nat} (k bw f : Nat) (out : List Byte) (hi : vs.length ≤ i) :
    hybridLoop k vs bw f i out = out := by
  cases f with
  | zero => rfl
  | succ f => exact if_neg (Nat.not_lt.2 hi)

/-- The loop of `Hybrid` does not depend on its fuel, where that reaches the end of the sequence. -/
theorem hybridLoop_fuel {k bw : Nat} {vs : List Nat} (f g i : Nat) (out : List Byte) (hf : vs.length - i ≤ f)
    (hg : vs.length - i ≤ g) : hybridLoop k vs bw f i out = hybridLoop k vs bw g i out := by
  induction f generalizing g i out with
  | zero =>
    have hi : vs.length ≤ i := by omega
    rw [hybridLoop_end _ _ _ _ hi, hybridLoop_end _ _ _ _ hi]
  | succ f ih =>
    by_cases hi : i < vs.length
    · obtain ⟨g, rfl⟩ : ∃ g', g = g' + 1 := ⟨g - 1, by omega⟩
      rw [hybridLoop, hybridLoop, if_pos hi, if_pos hi]
      split
      · have := runlen_pos hi
        exact ih g _ _ (by omega) (by omega)
      · next hr =>
        have := lt_spanEnd hi (Nat.not_le.1 hr)
        exact ih g _ _ (by omega) (by omega)
    · rw [hybridLoop_end _ _ _ _ (by omega), hybridLoop_end _ _ _ _ (by omega)]

/-- `Hybrid` at a long run emits it and passes it (43_hybrid.md R181, step 2). -/
theorem hybridLoop_run {vs : List Nat} {i : Nat} (k bw : Nat) (out : List Byte) (hi : i < vs.length)
    (hr : 8 ≤ runlen vs i) :
    hybridLoop k vs bw vs.length i out =
      hybridLoop k vs bw vs.length (i + runlen vs i)
        (out ++ runEnc (k + out.length) (valueAt vs i) (runlen vs i) bw) := by
  rw [hybridLoop_fuel vs.length (vs.length + 1) i out (by omega) (by omega), hybridLoop, if_pos hi, if_pos hr]

/-- `Hybrid` at a short run emits the span that begins there and passes it (43_hybrid.md R181, steps 3 and 4). -/
theorem hybridLoop_span {vs : List Nat} {i : Nat} (k bw : Nat) (out : List Byte) (hi : i < vs.length)
    (hr : runlen vs i < 8) :
    hybridLoop k vs bw vs.length i out =
      hybridLoop k vs bw vs.length (spanEnd vs vs.length i)
        (out ++ bitPack (k + out.length) (slice vs i (spanEnd vs vs.length i)) bw) := by
  rw [hybridLoop_fuel vs.length (vs.length + 1) i out (by omega) (by omega), hybridLoop, if_pos hi,
    if_neg (Nat.not_le.2 hr)]

/-! ### What the engine is going to have built -/

/-- The output that the engine, in working state `w`, is going to have built when it is DONE, `k` being the index of the
first free value of the whole result: for HYBRID, R181's loop taken up at the cursor, or at the end of the open span. -/
def Work.outcome (S : Snapshot) (k : Nat) (w : Work) : List Byte :=
  match w.scan with
  | .done => w.out
  | .scanningRun =>
    if S.cmd = .hybrid then hybridLoop k S.values S.bw.toNat S.values.length w.i w.out
    else w.out ++ result S (k + w.out.length)
  | .scanningLiteralSpan =>
    let e := spanEnd S.values S.values.length w.j
    hybridLoop k S.values S.bw.toNat S.values.length e
      (w.out ++ bitPack (k + w.out.length) (slice S.values w.i e) S.bw.toNat)

/-- From the working state of START the engine is going to build `E(S)`. -/
theorem Work.outcome_fresh (S : Snapshot) (k : Nat) : Work.fresh.outcome S k = result S k := by
  cases hc : S.cmd <;> simp [Work.outcome, Work.fresh, result, hc, hybrid]

/-- VARINT, RUN and BITPACK emit all of `E(S)` in one transition (log entry 5). -/
theorem doAct_out_single {S : Snapshot} {w : Work} (k : Nat) (hc : S.cmd ≠ .hybrid) (hs : w.scan = .scanningRun) :
    (doAct S (nextAct S w) w k).out = w.out ++ result S k := by
  cases hcmd : S.cmd with
  | varint => simp [nextAct, hs, hcmd, doAct, result]
  | run => simp [nextAct, hs, hcmd, doAct_runHeader, emitRun, runValue, result]
  | bitpack => simp [nextAct, hs, hcmd, doAct_litHeader, emitLit, litValues, result]
  | hybrid => exact absurd hcmd hc

/-- A transition does not change what the engine is going to have built, each byte of the output having taken one free
value's index (43_hybrid.md R186, log entry 15). -/
theorem doAct_outcome {S : Snapshot} {w : Work} (k : Nat) (hw : w.legal S) (hn : nextAct S w ≠ .none) :
    (doAct S (nextAct S w) w (k + w.out.length)).outcome S k = w.outcome S k := by
  have hcases := nextAct_cases S w (k + w.out.length) hw hn
  set w' := doAct S (nextAct S w) w (k + w.out.length) with hw'
  rcases hcases with ⟨hc, hs, hs', -, -⟩ | ⟨hc, hs, hi, hs', hr, ha, hi', -⟩ | ⟨hc, hs, hi, hr, ha, hs', hi', hj', ho⟩ |
    ⟨hc, hs, hi, ha, hs', -, -, ho⟩ | ⟨hc, hs, hj, hr, ha, hs', hi', hj', ho⟩ | ⟨hc, hs, hj, -, ha, hs', hi', -⟩
  · have ho : w'.out = w.out ++ result S (k + w.out.length) := doAct_out_single _ hc hs
    simp [Work.outcome, hs, hs', hc, ho]
  · have ho : w'.out = w.out ++ runEnc (k + w.out.length) (valueAt S.values w.i) (runlen S.values w.i) S.bw.toNat := by
      simp [hw', ha, doAct_runHeader, emitRun, runValue, hc]
    simp [Work.outcome, hs, hs', hc, hi', ho, hybridLoop_run k _ w.out hi hr]
  · simp [Work.outcome, hs, hs', hc, hi', hj', ho, hybridLoop_span k _ w.out hi hr]
  · simp [Work.outcome, hs, hs', hc, ho, hybridLoop_end k _ _ w.out hi.ge]
  · simp [Work.outcome, hs, hs', hi', hj', ho, ← spanEnd_extend hj hr]
  · have ho : w'.out = w.out ++ bitPack (k + w.out.length) (slice S.values w.i w.j) S.bw.toNat := by
      simp [hw', ha, doAct_litHeader, emitLit, litValues, hc]
    simp [Work.outcome, hs, hs', hc, hi', ho, spanEnd_stop hj]

/-- A transition only appends to the output. -/
theorem doAct_out_length (S : Snapshot) (a : Act) (w : Work) (k : Nat) : w.out.length ≤ (doAct S a w k).out.length := by
  cases a with
  | emitInt => simp [doAct]
  | emitBlock h => simp only [doAct]; split <;> simp [emitRun, emitLit]
  | openSpan | extendSpan | stop | none => exact Nat.le_refl _

/-- A legal working state with no transition left is DONE. -/
theorem scan_done_of_nextAct_none {S : Snapshot} {w : Work} (hw : w.legal S) (hn : nextAct S w = .none) :
    w.scan = .done := by
  obtain ⟨-, hspan, -⟩ := hw
  cases hs : w.scan with
  | done => rfl
  | scanningRun => cases hc : S.cmd <;> grind [nextAct]
  | scanningLiteralSpan =>
    obtain ⟨hc, -⟩ := hspan hs
    grind [nextAct]

/-- With enough fuel the engine runs to DONE, has then built its outcome, and has taken one free value's index a byte. -/
theorem runEngine_outcome {S : Snapshot} (k f : Nat) (w : Work) (hw : w.legal S) (hf : w.todo S ≤ f) :
    (runEngine S f w (k + w.out.length)).1.out = w.outcome S k ∧
    (runEngine S f w (k + w.out.length)).1.scan = .done ∧
    (runEngine S f w (k + w.out.length)).2 = k + (w.outcome S k).length := by
  induction f generalizing w with
  | zero =>
    have hn : nextAct S w = .none := by
      by_contra hn
      have := doAct_todo 0 hw hn
      omega
    have hs := scan_done_of_nextAct_none hw hn
    simp [runEngine_done _ _ hn, Work.outcome, hs]
  | succ f ih =>
    by_cases hn : nextAct S w = .none
    · have hs := scan_done_of_nextAct_none hw hn
      simp [runEngine_done _ _ hn, Work.outcome, hs]
    · have ht := doAct_todo (k + w.out.length) hw hn
      have hdraws : drawsAfter (k + w.out.length) w (doAct S (nextAct S w) w (k + w.out.length)) =
          k + (doAct S (nextAct S w) w (k + w.out.length)).out.length := by
        have := doAct_out_length S (nextAct S w) w (k + w.out.length)
        unfold drawsAfter
        omega
      rw [runEngine_succ _ _ hn, hdraws, ← doAct_outcome k hw hn]
      exact ih _ (doAct_legal _ hw hn) (by omega)

/-- From the working state of START the engine runs to DONE and builds `E(S)` (10_state.md R41). -/
theorem runEngine_fresh (S : Snapshot) (k : Nat) :
    (runEngine S (engineFuel S) Work.fresh k).1.out = result S k ∧
    (runEngine S (engineFuel S) Work.fresh k).1.scan = .done ∧
    (runEngine S (engineFuel S) Work.fresh k).2 = k + (result S k).length := by
  rw [← Work.outcome_fresh S k]
  exact runEngine_outcome k _ Work.fresh (Work.fresh_legal S) (Work.todo_le_fuel ..)

/-! ### The completion step -/

/-- The fault set after a completion has grown by UnwrittenInput exactly if an input was unwritten (10_state.md R42). -/
theorem FaultSet.afterCompletion_eq (unwritten : Bool) (f : FaultSet) :
    f.afterCompletion unwritten = if unwritten then f.add .unwrittenInput else f := by
  cases unwritten <;> rfl

/-- Settles O37: the engine has built `E(S)`, and `State.commit` writes it. -/
theorem completionEffect : Obligations.CompletionEffect := by
  intro s S hp
  obtain ⟨hout, -, -⟩ := runEngine_fresh S s.draws
  refine ⟨_, complete_busy hp, ?_, rfl, rfl, rfl, rfl, rfl, rfl, rfl, rfl, rfl, rfl, FaultSet.afterCompletion_eq ..⟩
  rw [hout]
  exact commit_completed _ _ _ rfl rfl

end Sys2Proof.Machine

/-! PROOFS. The registers as the host sees them, and the events of the schedule. -/
namespace Sys2Proof.Machine

/-! ### Reads and writes of the registers -/

/-- A host read of a register answers it; of OUT_LEN while BUSY, a draw (10_state.md R21, 20_memory.md R69). -/
theorem hostRead_reg (r : Reg) (s : State) :
    hostRead 4 r.offset s = .next (if r = .outLen ∧ s.busy then answerDraw s else s.answer (readReg r s) 0) := by
  cases r <;> rfl

/-- A host write at a register's offset writes that register (10_state.md R21). -/
theorem hostWrite_reg (r : Reg) (d : Word) (s : State) : hostWrite 4 r.offset d s = writeReg r d s := by
  cases r <;> rfl

/-- A read that is no draw changes what the host holds and nothing else. -/
theorem State.answer_zero (v : Word) (s : State) : s.answer v 0 = { s with reply := some v } := rfl

/-- A host read of a register other than OUT_LEN, at any time. -/
theorem hostRead_reg_any {r : Reg} (hr : r ≠ .outLen) (s : State) :
    hostRead 4 r.offset s = .next { s with reply := some (readReg r s) } := by
  rw [hostRead_reg, if_neg fun h => hr h.1, State.answer_zero]

/-- A host read of a register while IDLE. -/
theorem hostRead_reg_idle (r : Reg) {s : State} (hb : s.busy = false) :
    hostRead 4 r.offset s = .next { s with reply := some (readReg r s) } := by
  rw [hostRead_reg, if_neg (by simp [hb]), State.answer_zero]

/-- Settles O41: while IDLE a register access is the register itself, by `writeReg` and `readReg`. -/
theorem registerReadBack : Obligations.RegisterReadBack := by
  intro s v hb
  have hwrite {t : State} : Host.Outcome.next (φ := Fault) (ρ := Refusal) (if s.busy then s else t) = .next t := by
    simp [hb]
  exact ⟨(hostWrite_reg .bitWidth v s).trans hwrite, (hostWrite_reg .inLen v s).trans hwrite,
    (hostWrite_reg .arg v s).trans hwrite, (hostWrite_reg .count v s).trans hwrite,
    hostRead_reg_idle .bitWidth hb, hostRead_reg_idle .inLen hb, hostRead_reg_idle .arg hb,
    hostRead_reg_idle .count hb, hostRead_reg_idle .outLen hb, hostRead_reg_idle .ctrl hb⟩

/-- The fields of a word laid out as STATUS is: one bit, one bit, and a code of four bits (10_state.md R23). -/
theorem fields_of_statusLayout : ∀ (busy done : Bool) (code : BitVec 4) (w : Word),
    w = BitVec.ofNat 32 (bitOf busy + 2 * bitOf done + 16 * code.toNat) →
    w.getLsbD 0 = busy ∧ w.getLsbD 1 = done ∧ w.extractLsb' 2 2 = 0 ∧ w.extractLsb' 4 4 = code ∧
      w.extractLsb' 8 24 = 0 := by
  simp only [forall_eq]
  decide

/-- Bit 0 of STATUS is BUSY (10_state.md R23). -/
theorem statusWord_bit0 (s : State) : (statusWord s).getLsbD 0 = s.busy :=
  (fields_of_statusLayout s.busy s.done s.err.code _ rfl).1

/-- Settles O42: STATUS is read at any time, and its fields are those of its layout. -/
theorem statusRead : Obligations.StatusRead := by
  intro s v
  obtain ⟨hbusy, hdone, hlow, hcode, hhigh⟩ := fields_of_statusLayout s.busy s.done s.err.code _ rfl
  exact ⟨hostRead_reg_any (r := .status) (by decide) s, hostWrite_reg .status v s, hbusy, hdone, hlow, hcode, hhigh,
    rfl, rfl, rfl, rfl, rfl, rfl⟩

/-! ### The capacities -/

/-- A CTRL write with START = 1 leaves CAP_IN, CAP_OUT and the fault set. -/
@[simp] theorem start_capIn (op : BitVec 3) (s : State) : (start op s).capIn = s.capIn := by
  rcases start_cases op s with ⟨-, h⟩ | ⟨-, -, h⟩ | ⟨-, -, h⟩ <;> simp [h]

@[simp] theorem start_capOut (op : BitVec 3) (s : State) : (start op s).capOut = s.capOut := by
  rcases start_cases op s with ⟨-, h⟩ | ⟨-, -, h⟩ | ⟨-, -, h⟩ <;> simp [h]

@[simp] theorem start_faults (op : BitVec 3) (s : State) : (start op s).faults = s.faults := by
  rcases start_cases op s with ⟨-, h⟩ | ⟨-, -, h⟩ | ⟨-, -, h⟩ <;> simp [h]

/-- No step changes a capacity (10_state.md R29, R30). -/
theorem step_caps {s t : State} (h : step s = .next t) : t.capIn = s.capIn ∧ t.capOut = s.capOut := by
  rcases step_inversion h with ⟨-, rfl⟩ | ⟨-, rest, rfl⟩ | ⟨-, rest, S, w, -, rfl⟩ |
    ⟨rest, S, w, -, -, -, rfl⟩ | ⟨_, _, v, rest, -, rfl⟩ | ⟨_, _, rest, v, n, -, rfl | ⟨r, -, rfl⟩⟩ |
    ⟨_, _, _, rest, -, rfl | ⟨r, -, rfl⟩⟩ |
    ⟨a, d, rest, -, -, -, rfl | rfl | rfl | rfl | ⟨-, rfl⟩ | ⟨-, -, rfl⟩ | ⟨-, -, rfl⟩⟩ <;>
  simp

/-- Settles O43: the seeds stay inside R7's bounds, so 32 bits hold the capacities, and `step_caps` keeps them. -/
theorem capacitiesConstant : Obligations.CapacitiesConstant := by
  refine ⟨?_, ?_, fun s v => ⟨?_, ?_, ?_, ?_, ?_⟩, fun s t => step_caps⟩
  · simp only [State.reset, State.resetWith, Config.nMax, BitVec.toNat_ofNat]
    omega
  · simp only [State.reset, State.resetWith, Config.outMax, BitVec.toNat_ofNat]
    omega
  · exact hostRead_reg_any (r := .capIn) (by decide) s
  · exact hostRead_reg_any (r := .capOut) (by decide) s
  · exact hostWrite_reg .capIn v s
  · exact hostWrite_reg .capOut v s
  · exact hostWrite_reg .outLen v s

/-! ### What a step does to STATUS -/

/-- What a step does to BUSY, DONE and ERR: nothing, unless it is a START while IDLE, or ends in IDLE by completion or
reset (10_state.md R23, R34). -/
theorem step_status {s t : State} (h : step s = .next t) :
    (t.busy = s.busy ∧ t.done = s.done ∧ t.err = s.err) ∨
    (s.busy = false ∧ ∃ d rest, s.nextStarts d ∧ t = start (d.extractLsb' 0 3) (s.withPending rest)) ∨
    ((s.nextCompletes ∨ s.nextResets) ∧ t.busy = false) := by
  rcases step_inversion h with ⟨-, rfl⟩ | ⟨hres, rest, rfl⟩ | ⟨hcomp, rest, S, w, -, rfl⟩ |
    ⟨rest, S, w, -, hp, -, rfl⟩ | ⟨_, _, v, rest, -, rfl⟩ | ⟨_, _, rest, v, n, -, hread⟩ |
    ⟨_, _, _, rest, -, hwrite⟩ | ⟨a, d, rest, hb, -, hpend, hwrite⟩
  · exact .inl ⟨rfl, rfl, rfl⟩
  · exact .inr (.inr ⟨.inr hres, rfl⟩)
  · exact .inr (.inr ⟨.inl hcomp, rfl⟩)
  · exact .inl ⟨(s.busy_of_phase_busy hp).symm, rfl, rfl⟩
  · exact .inl ⟨rfl, rfl, rfl⟩
  · rcases hread with rfl | ⟨r, -, rfl⟩ <;> exact .inl ⟨rfl, rfl, rfl⟩
  · rcases hwrite with rfl | ⟨r, -, rfl⟩ <;> exact .inl ⟨rfl, rfl, rfl⟩
  · rcases hwrite with rfl | rfl | rfl | rfl | ⟨-, rfl⟩ | ⟨-, -, rfl⟩ | ⟨rfl, h8, rfl⟩
    on_goal 7 => exact .inr (.inl ⟨hb, d, rest, ⟨⟨rest, hpend⟩, h8⟩, rfl⟩)
    all_goals exact .inl ⟨rfl, rfl, rfl⟩

/-- Settles O52: of what a step does to BUSY (`step_status`), only a launch sets it, and only completion and reset clear it. -/
theorem phaseTransitions : Obligations.PhaseTransitions := by
  refine ⟨fun s => ?_, rfl, fun s t hstep => ⟨fun hs ht => ?_, fun hs ht => ?_⟩⟩
  · rw [statusWord_bit0]
    exact s.busy_eq_false_iff.symm
  · rcases step_status hstep with ⟨hb, -, -⟩ | ⟨-, d, rest, hd, rfl⟩ | ⟨-, hb⟩
    · simp [hb, hs] at ht
    · refine ⟨d, hd, ?_⟩
      rcases start_cases (d.extractLsb' 0 3) (s.withPending rest) with ⟨hb, -⟩ | ⟨-, -, h⟩ | ⟨-, hv, -⟩
      · simp [hs] at hb
      · simp [h, hs] at ht
      · exact hv
    · simp [hb] at ht
  · rcases step_status hstep with ⟨hb, -, -⟩ | ⟨hb, -⟩ | ⟨hcause, -⟩
    · simp [hb, hs] at ht
    · simp [hs] at hb
    · exact hcause

/-- Settles O53: outside START, completion and reset a step keeps BUSY, DONE and ERR (`step_status`). -/
theorem statusTransitions : Obligations.StatusTransitions := by
  intro s t hstep hne
  rcases step_status hstep with ⟨hb, hd, he⟩ | ⟨hb, d, -, hd, -⟩ | ⟨hcause, -⟩
  · exact absurd (statusWord_congr hb hd he) hne
  · exact .inl ⟨d, hd, hb⟩
  · exact .inr hcause

/-! ### What a step while BUSY leaves -/

/-- The operands of two states are the same: CTRL.OP, the operand registers and IN_MEM (10_state.md R35). -/
structure State.SameOperands (s t : State) : Prop where
  op : t.op = s.op
  bitWidth : t.bitWidth = s.bitWidth
  inLen : t.inLen = s.inLen
  arg : t.arg = s.arg
  count : t.count = s.count
  inMem : ∀ a, s.inRegion a → t.mem.read a = s.mem.read a

/-- The completion step writes OUT_MEM, which lies past IN_MEM (20_memory.md R62, R63). -/
theorem State.sameOperands_commit {s : State} (hc : s.capsLegal) (rest : List Event) (e : List Byte) (u : Bool) (n : Nat) :
    s.SameOperands ((s.withPending rest).commit e u n) := by
  refine ⟨rfl, rfl, rfl, rfl, rfl, fun a ha => ?_⟩
  obtain ⟨-, hcap, -⟩ := hc
  obtain ⟨-, ha⟩ := ha
  exact Memory.read_writeBytes_out _ _ _ _ (.inl (by unfold outAddr; omega))

/-- While BUSY a step that is no reset leaves the operands, and one that does not complete either leaves the snapshot: it
gives the engine a new working state, or changes no more than the fault set and what the host holds. -/
theorem step_busy {s t : State} (hc : s.capsLegal) (hb : s.busy = true) (h : step s = .next t) (hres : ¬ s.nextResets) :
    s.SameOperands t ∧ (¬ s.nextCompletes → ∃ S w w', s.phase = .busy S w ∧ t.phase = .busy S w') := by
  obtain ⟨S, w, hp⟩ := s.busy_eq_true_iff.1 hb
  have frame {u : State} (hu : u.phase = s.phase) (hops : s.SameOperands u) :
      s.SameOperands u ∧ (¬ s.nextCompletes → ∃ S w w', s.phase = .busy S w ∧ u.phase = .busy S w') :=
    ⟨hops, fun _ => ⟨S, w, w, hp, hu.trans hp⟩⟩
  rcases step_inversion h with ⟨-, rfl⟩ | ⟨hr, -⟩ | ⟨hcomp, rest, S, w, -, rfl⟩ |
    ⟨rest, S, w, -, hp, -, rfl⟩ | ⟨_, _, v, rest, -, rfl⟩ | ⟨_, _, rest, v, n, -, hread⟩ |
    ⟨_, _, _, rest, -, hwrite⟩ | ⟨_, _, _, hidle, -⟩
  · exact frame rfl ⟨rfl, rfl, rfl, rfl, rfl, fun _ _ => rfl⟩
  · exact absurd hr hres
  · exact ⟨State.sameOperands_commit hc .., fun hn => absurd hcomp hn⟩
  · exact ⟨⟨rfl, rfl, rfl, rfl, rfl, fun _ _ => rfl⟩, fun _ => ⟨S, w, _, hp, rfl⟩⟩
  · exact frame rfl ⟨rfl, rfl, rfl, rfl, rfl, fun _ _ => rfl⟩
  · rcases hread with rfl | ⟨r, -, rfl⟩ <;> exact frame rfl ⟨rfl, rfl, rfl, rfl, rfl, fun _ _ => rfl⟩
  · rcases hwrite with rfl | ⟨r, -, rfl⟩ <;> exact frame rfl ⟨rfl, rfl, rfl, rfl, rfl, fun _ _ => rfl⟩
  · simp [hb] at hidle

/-- Settles O54: `step_busy`, written out. -/
theorem busyFreezesOperands : Obligations.BusyFreezesOperands := by
  intro s t hc hb hstep hres
  obtain ⟨⟨hop, hbw, hlen, harg, hcount, hmem⟩, hsnap⟩ := step_busy hc hb hstep hres
  exact ⟨hop, hbw, hlen, harg, hcount, hmem, hsnap⟩

/-! ### What a step adds to the fault set -/

/-- The reasons of a fault set to which one was added. -/
theorem FaultSet.has_add_iff (q r : FaultReason) (f : FaultSet) : (f.add r).has q = true ↔ q = r ∨ f.has q = true := by
  cases q <;> cases r <;> simp [FaultSet.has, FaultSet.add]

/-- What a step that is no reset does to the fault set: nothing, or it adds the fault of a host access, or UnwrittenInput
at the completion of a command with an unwritten input (10_state.md R38, R42, 60_exceptions.md R216). -/
theorem step_faults {s t : State} (h : step s = .next t) (hres : ¬ s.nextResets) :
    t.faults = s.faults ∨
    (∃ b a r, s.nextAccesses b a ∧ s.accessFaults b a r ∧ t.faults = s.faults.add r) ∨
    (s.nextCompletes ∧ (∃ S w, s.phase = .busy S w ∧ S.unwritten = true) ∧ t.faults = s.faults.add .unwrittenInput) := by
  rcases step_inversion h with ⟨-, rfl⟩ | ⟨hr, -⟩ | ⟨hcomp, rest, S, w, hp, rfl⟩ |
    ⟨rest, S, w, -, -, -, rfl⟩ | ⟨_, _, v, rest, -, rfl⟩ | ⟨b, a, rest, v, n, hpend, hread⟩ |
    ⟨b, a, d, rest, hpend, hwrite⟩ | ⟨a, d, rest, -, -, -, hwrite⟩
  · exact .inl rfl
  · exact absurd hr hres
  · cases hu : S.unwritten
    · exact .inl rfl
    · exact .inr (.inr ⟨hcomp, ⟨S, w, hp, hu⟩, rfl⟩)
  · exact .inl rfl
  · exact .inl rfl
  · rcases hread with rfl | ⟨r, hr, rfl⟩
    · exact .inl rfl
    · exact .inr (.inl ⟨b, a, r, ⟨rest, .inl hpend⟩, hr, rfl⟩)
  · rcases hwrite with rfl | ⟨r, hr, rfl⟩
    · exact .inl rfl
    · exact .inr (.inl ⟨b, a, r, ⟨rest, .inr ⟨d, hpend⟩⟩, hr, rfl⟩)
  · rcases hwrite with rfl | rfl | rfl | rfl | ⟨-, rfl⟩ | ⟨-, -, rfl⟩ | ⟨-, -, rfl⟩ <;> exact .inl (by simp)

/-- Settles O56: each of the three things `step_faults` allows names the cause of the one reason it adds. -/
theorem faultSetGrows : Obligations.FaultSetGrows := by
  intro s t hstep hres
  rcases step_faults hstep hres with hf | ⟨b, a, r, hacc, hr, hf⟩ | ⟨hcomp, hun, hf⟩
  · simp +contextual [hf]
  · simp only [hf, FaultSet.has_add_iff]
    rcases hr with ⟨rfl, hmis⟩ | ⟨rfl, rfl, hal, hunm⟩
    · exact ⟨fun _ => .inr, fun _ _ => ⟨b, a, hacc, hmis⟩, by simp +contextual, by simp +contextual⟩
    · exact ⟨fun _ => .inr, by simp +contextual, fun _ _ => ⟨a, hacc, hal, hunm⟩, by simp +contextual⟩
  · simp only [hf, FaultSet.has_add_iff]
    exact ⟨fun _ => .inr, by simp +contextual, by simp +contextual, fun _ _ => ⟨hcomp, hun⟩⟩

/-! ### Events and decoded instructions -/

/-- A step runs the next event, no longer pending. -/
theorem step_pending {s : State} {e : Event} {rest : List Event} (h : s.pending = e :: rest) :
    step s = runEvent e (s.withPending rest) := by
  simp [step, h]

/-- A step with nothing pending is the block's own. -/
theorem step_quiet {s : State} (h : s.pending = []) : step s = quiet s := by simp [step, h]

/-- Settles O22: a step is the next event's, or with none pending the block's own. -/
theorem stepKinds : Obligations.StepKinds := by
  intro s rest
  refine ⟨fun _ _ => step_pending, fun _ _ _ => step_pending, step_pending, step_pending, fun _ => step_pending,
    step_pending, fun hp hidle => ?_, fun hp hb => ?_⟩
  · rw [step_quiet hp, quiet, s.busy_of_phase_idle hidle]
    rfl
  · rw [step_quiet hp, quiet, if_pos hb]

/-- Reading a VarInt, whatever follows it, yields the integer encoded (40_varint.md R117). -/
theorem readVarInt_varInt (n : Nat) (rest : List Byte) : readVarInt (varInt n ++ rest) = some (n, rest) := by
  induction n using Nat.strongRecOn with
  | ind n ih =>
    rw [varInt_eq]
    split
    · have hn : n < 128 := by omega
      simp [readVarInt, Nat.mod_eq_of_lt hn, Nat.mod_eq_of_lt (show n < 256 by omega), hn]
    · have hlt : n / 128 < n := by omega
      have hb : (BitVec.ofNat 8 (n % 128 + 128)).toNat = n % 128 + 128 := by
        rw [BitVec.toNat_ofNat]; omega
      simp [readVarInt, ih _ hlt, hb]
      omega

/-- The bytes of a command word decode to its instruction (30_encoding.md R90, R91). -/
theorem decode_bytesOfWord (d : Word) : decode .command (bytesOfWord d) = .ok (decodeCommand d, []) := by
  simp [decode, bytesOfWord, wordOfBytes_bytesOfWord]

/-- The bytes of a header decode to the block it announces (30_encoding.md R95). -/
theorem decode_varInt (h : Nat) : decode .stream (varInt h) = .ok (Instr.ofHeader h, []) := by
  have hread := readVarInt_varInt h []
  rw [List.append_nil] at hread
  simp [decode, hread]

/-- A working step where a block is due executes the instruction its header announces. -/
theorem engineWork_emitBlock {s : State} {S : Snapshot} {w : Work} {h : Nat} (hp : s.phase = .busy S w)
    (ha : nextAct S w = .emitBlock h) : engineWork s = exec (Instr.ofHeader h) s := by
  simp [engineWork, hp, ha]

/-- Settles O21: the bytes of `d` and of a header have one reading, the instruction that the host write or the working step executes. -/
theorem stepRunsDecoded : Obligations.StepRunsDecoded := by
  constructor
  · intro s d rest i hpend hdec _
    rw [decode_bytesOfWord] at hdec
    cases hdec
    rw [step_pending hpend]
    exact hostWrite_reg .ctrl d _
  · intro s S w h rest i hpend hp ha hdec _
    rw [decode_varInt] at hdec
    cases hdec
    rw [step_pending hpend]
    exact engineWork_emitBlock hp ha

end Sys2Proof.Machine

/-! PROOFS. The memory regions and the bus as the host sees them (20_memory.md). -/
namespace Sys2Proof.Machine

/-! ### What changes memory and OUT_LEN -/

/-- An aligned address in IN_MEM is that of a word below N_MAX. -/
theorem exists_inAddr_of_locate {s : State} {a : Nat} (ha : a % 4 = 0) (hl : locate s a = .inMem) :
    ∃ k, k < s.capIn.toNat ∧ a = inAddr k := by
  obtain ⟨hlo, hhi⟩ := inRegion_of_locate hl
  exact ⟨(a - 0x10000) / 4, by omega, by unfold inAddr; omega⟩

/-- A START leaves memory, and leaves OUT_LEN unless it ends in a validation error (60_exceptions.md R213). -/
theorem start_memory (op : BitVec 3) (s : State) :
    (start op s).mem = s.mem ∧ ((start op s).outLen = s.outLen ∨ (start op s).err ≠ .ok) := by
  rcases start_cases op s with ⟨-, h⟩ | ⟨-, hv, h⟩ | ⟨-, -, h⟩ <;> rw [h]
  · exact ⟨rfl, .inl rfl⟩
  · exact ⟨rfl, .inr hv⟩
  · exact ⟨rfl, .inl rfl⟩

/-- What a step that is no reset does to memory and OUT_LEN: a completion writes OUT_MEM from its start on; any other step
leaves memory, and OUT_LEN unless it is a START that fails; or it is a host write of an IN_MEM word while IDLE
(20_memory.md R72). -/
theorem step_memory {s t : State} (h : step s = .next t) (hres : ¬ s.nextResets) :
    (s.nextCompletes ∧ ∃ e, t.mem = s.mem.writeBytes (outAddr 0) e) ∨
    (t.mem = s.mem ∧ (t.outLen = s.outLen ∨ ∃ d, s.nextStarts d ∧ t.err ≠ .ok)) ∨
    (s.busy = false ∧ t.outLen = s.outLen ∧ ∃ k v, k < s.capIn.toNat ∧ s.nextWritesInput k v ∧
      t.mem = s.mem.writeBytes (inAddr k) (bytesOfWord v)) := by
  rcases step_inversion h with ⟨-, rfl⟩ | ⟨hr, -⟩ | ⟨hcomp, rest, S, w, -, rfl⟩ |
    ⟨rest, S, w, -, -, -, rfl⟩ | ⟨_, _, v, rest, -, rfl⟩ | ⟨_, _, rest, v, n, -, hread⟩ |
    ⟨_, _, _, rest, -, hwrite⟩ | ⟨a, d, rest, hb, ha, hpend, hwrite⟩
  · exact .inr (.inl ⟨rfl, .inl rfl⟩)
  · exact absurd hr hres
  · exact .inl ⟨hcomp, _, rfl⟩
  · exact .inr (.inl ⟨rfl, .inl rfl⟩)
  · exact .inr (.inl ⟨rfl, .inl rfl⟩)
  · rcases hread with rfl | ⟨r, -, rfl⟩ <;> exact .inr (.inl ⟨rfl, .inl rfl⟩)
  · rcases hwrite with rfl | ⟨r, -, rfl⟩ <;> exact .inr (.inl ⟨rfl, .inl rfl⟩)
  · rcases hwrite with rfl | rfl | rfl | rfl | ⟨hl, rfl⟩ | ⟨-, -, rfl⟩ | ⟨rfl, h8, rfl⟩
    on_goal 7 =>
      obtain ⟨hmem, hlen⟩ := start_memory (d.extractLsb' 0 3) (s.withPending rest)
      exact .inr (.inl ⟨hmem, hlen.imp_right fun herr => ⟨d, ⟨⟨rest, hpend⟩, h8⟩, herr⟩⟩)
    on_goal 5 =>
      obtain ⟨k, hk, rfl⟩ := exists_inAddr_of_locate ha hl
      exact .inr (.inr ⟨hb, rfl, k, d, hk, ⟨rest, hpend⟩, rfl⟩)
    all_goals exact .inr (.inl ⟨rfl, .inl rfl⟩)

/-- Settles O55: of what a step writes (`step_memory`), a completion's bytes lie past IN_MEM, a host write's four below
OUT_MEM, and of IN_MEM in its own word. -/
theorem memoryWriters : Obligations.MemoryWriters := by
  intro s t hc hstep
  by_cases hres : s.nextResets
  · exact ⟨fun _ _ => .inr hres, fun _ => .inr (.inl hres), fun _ _ _ _ _ => .inr hres⟩
  obtain ⟨-, hcap, -⟩ := hc
  rcases step_memory hstep hres with ⟨hcomp, e, hmem⟩ | ⟨hmem, hlen⟩ | ⟨hb, hlen, k, v, hk, hv, hmem⟩
  · refine ⟨fun _ _ => .inl hcomp, fun _ => .inl hcomp, fun k r hk hr hne => absurd ?_ hne⟩
    rw [hmem]
    exact Memory.read_writeBytes_out _ _ _ _ (.inl (by unfold inAddr outAddr; omega))
  · refine ⟨fun j hne => absurd ?_ hne, fun hne => ?_, fun _ _ _ _ hne => absurd (by rw [hmem]) hne⟩
    · rw [State.outByte, hmem, State.outByte]
    · exact .inr (.inr (hlen.resolve_left hne))
  · refine ⟨fun j hne => absurd ?_ hne, fun hne => absurd hlen hne, fun k' r hk' hr hne => ?_⟩
    · rw [State.outByte, hmem]
      exact Memory.read_writeBytes_out _ _ _ _ (.inr (by rw [bytesOfWord_length]; unfold inAddr outAddr; omega))
    · obtain rfl : k' = k := by
        by_contra hkk
        refine hne ?_
        rw [hmem]
        exact Memory.read_writeBytes_out _ _ _ _ (by rw [bytesOfWord_length]; unfold inAddr; omega)
      exact .inl ⟨hb, v, hv⟩

/-! ### The words of memory -/

/-- The word just written to `IN[k]` is the word it holds. -/
theorem inWord_writeBytes (m : Memory) (k : Nat) (v : Word) :
    inWord (m.writeBytes (inAddr k) (bytesOfWord v)) k = some v := by
  have hread (r : Nat) (hr : r < 4) : (m.writeBytes (inAddr k) (bytesOfWord v)).read (inAddr k + r) = (bytesOfWord v)[r]? :=
    Memory.read_writeBytes_at _ _ _ _ (by simpa using hr)
  have hfirst : (m.writeBytes (inAddr k) (bytesOfWord v)).read (inAddr k) = (bytesOfWord v)[0]? := hread 0 (by decide)
  rw [inWord, hfirst, hread 1 (by decide), hread 2 (by decide), hread 3 (by decide)]
  exact congrArg some (wordOfBytes_bytesOfWord v)

/-- A written word of IN_MEM is read as it is, whatever the free values (10_state.md R33). -/
theorem wordAt_of_inWord {m : Memory} {k : Nat} {x : Word} (h : inWord m k = some x) (n : Nat) :
    wordAt m (inAddr k) n = x := by
  unfold inWord at h
  split at h
  · next b0 b1 b2 b3 h0 h1 h2 h3 =>
    simpa [wordAt, byteAt, h0, h1, h2, h3] using h
  · simp at h

/-- The bytes of the little-endian word of four bytes (20_memory.md R66). -/
theorem byteOfWord_wordOfBytes (b0 b1 b2 b3 : Byte) :
    byteOfWord (wordOfBytes b0 b1 b2 b3) 0 = b0 ∧ byteOfWord (wordOfBytes b0 b1 b2 b3) 1 = b1 ∧
    byteOfWord (wordOfBytes b0 b1 b2 b3) 2 = b2 ∧ byteOfWord (wordOfBytes b0 b1 b2 b3) 3 = b3 := by
  have past {n i : Nat} (hi : BitVec n) (lo : Byte) (h : 8 ≤ i) :
      (hi ++ lo).extractLsb' i 8 = hi.extractLsb' (i - 8) 8 := BitVec.extractLsb'_append_eq_of_le h
  unfold byteOfWord wordOfBytes
  refine ⟨BitVec.extractLsb'_append_eq_right, ?_, ?_, ?_⟩
  · exact (past _ _ (by decide)).trans BitVec.extractLsb'_append_eq_right
  · exact (past _ _ (by decide)).trans ((past _ _ (by decide)).trans BitVec.extractLsb'_append_eq_right)
  · exact (past _ _ (by decide)).trans ((past _ _ (by decide)).trans BitVec.extractLsb'_append_eq_left)

/-- The written ones of the four bytes of a word read (20_memory.md R66, 10_state.md R33). -/
theorem byteOfWord_wordAt {m : Memory} {a k : Nat} {b : Byte} (hk : k < 4) (h : m.read (a + k) = some b) (n : Nat) :
    byteOfWord (wordAt m a n) k = b := by
  obtain ⟨h0, h1, h2, h3⟩ := byteOfWord_wordOfBytes (byteAt m a n) (byteAt m (a + 1) (n + 1)) (byteAt m (a + 2) (n + 2))
    (byteAt m (a + 3) (n + 3))
  have hbyte (j : Nat) : byteAt m (a + k) j = b := by simp [byteAt, h]
  obtain rfl | rfl | rfl | rfl : k = 0 ∨ k = 1 ∨ k = 2 ∨ k = 3 := by omega
  · exact h0.trans (hbyte n)
  · exact h1.trans (hbyte (n + 1))
  · exact h2.trans (hbyte (n + 2))
  · exact h3.trans (hbyte (n + 3))

/-! ### Host accesses, region by region -/

section
variable {s : State}

/-- A host write of an IN_MEM word stores it while IDLE, and is ignored while BUSY (20_memory.md R62, R69). -/
theorem hostWrite_inAddr {k : Nat} (hk : k < s.capIn.toNat) (v : Word) :
    hostWrite 4 (inAddr k) v s = .next (if s.busy then s else s.storeWord (inAddr k) v) := by
  rw [hostWrite, if_pos (admitted_aligned (inAddr_aligned k)), locate_inAddr hk]

/-- A host read of an IN_MEM word answers it at any time (20_memory.md R68, R69). -/
theorem hostRead_inAddr {k : Nat} (hk : k < s.capIn.toNat) :
    hostRead 4 (inAddr k) s = .next (s.answer (wordAt s.mem (inAddr k) s.draws) 4) := by
  rw [hostRead, if_pos (admitted_aligned (inAddr_aligned k)), locate_inAddr hk]

/-- A host write to OUT_MEM is ignored (20_memory.md R63). -/
theorem hostWrite_outAddr {w : Nat} (hc : s.capsLegal) (hw : 4 * w < s.capOut.toNat) (v : Word) :
    hostWrite 4 (outAddr (4 * w)) v s = .next s := by
  rw [hostWrite, if_pos (admitted_aligned (outAddr_aligned w)), locate_outAddr hc hw]

/-- A host read of an OUT_MEM word answers it while IDLE, a draw while BUSY (20_memory.md R63, R69). -/
theorem hostRead_outAddr {w : Nat} (hc : s.capsLegal) (hw : 4 * w < s.capOut.toNat) :
    hostRead 4 (outAddr (4 * w)) s =
      .next (if s.busy then answerDraw s else s.answer (wordAt s.mem (outAddr (4 * w)) s.draws) 4) := by
  rw [hostRead, if_pos (admitted_aligned (outAddr_aligned w)), locate_outAddr hc hw]

/-- A read of an IN_MEM word, at any time, changes what the host holds only, and returns the word where it is written. -/
theorem hostRead_inAddr_value {k : Nat} (hk : k < s.capIn.toNat) :
    ∃ r, hostRead 4 (inAddr k) s = .next { s with reply := some r, draws := s.draws + 4 } ∧
      ∀ x, inWord s.mem k = some x → r = x :=
  ⟨_, hostRead_inAddr hk, fun _ hx => wordAt_of_inWord hx s.draws⟩

/-- An answer changes what the host holds and nothing of the block. -/
theorem State.sameBlock_answer (v : Word) (n : Nat) : s.SameBlock (s.answer v n) :=
  ⟨rfl, rfl, rfl, rfl, rfl, rfl, rfl, rfl, rfl, fun _ => rfl, rfl⟩

/-- What is unmapped is located so. -/
theorem locate_of_unmappedAt {a : Nat} (h : s.unmappedAt a) : locate s a = .unmapped := by
  obtain ⟨hreg, hin, hout⟩ := h
  exact (if_neg (by omega)).trans ((if_neg hin).trans (if_neg hout))

/-- A CTRL write is ignored while BUSY (20_memory.md R69). -/
theorem exec_decodeCommand_busy (hb : s.busy = true) (d : Word) : exec (decodeCommand d) s = .next s := by
  cases h8 : d.getLsbD 8
  · rw [exec_decodeCommand_setOp d s h8, if_pos hb]
  · rw [exec_decodeCommand_start d s h8, start, if_pos hb]

end

/-! ### The obligations about IN_MEM and OUT_MEM -/

/-- Settles O44: the word stored is the word IN_MEM then holds, and a written word is what a read answers. -/
theorem inputReadBack : Obligations.InputReadBack := by
  intro s k v hb _ hk
  refine ⟨⟨s.storeWord (inAddr k) v, ?_, rfl, inWord_writeBytes s.mem k v, ?_, fun a ha => ?_⟩,
    hostRead_inAddr_value hk⟩
  · rw [hostWrite_inAddr hk, if_neg (by simp [hb])]
  · exact ⟨_, hostRead_inAddr hk, congrArg some (wordAt_of_inWord (inWord_writeBytes s.mem k v) _)⟩
  · exact Memory.read_writeBytes_out _ _ _ _ (by rwa [bytesOfWord_length])

/-- Settles O45: a read answers the word of the four bytes, whose written bytes are in their places. -/
theorem outputRead : Obligations.OutputRead := by
  intro s w v hc hw
  refine ⟨hostWrite_outAddr hc hw v, fun hb => ⟨s.answer (wordAt s.mem (outAddr (4 * w)) s.draws) 4, _, ?_, rfl,
    State.sameBlock_answer _ 4, rfl, fun k b hk hbyte => ?_⟩⟩
  · rw [hostRead_outAddr hc hw, if_neg (by simp [hb])]
  · exact byteOfWord_wordAt hk (by rwa [State.outByte, outAddr, ← Nat.add_assoc] at hbyte) s.draws

/-! ### Accesses that fault, and accesses while BUSY -/

/-- Settles O46: such an access is not admitted, wherever it points. -/
theorem misalignedAccess : Obligations.MisalignedAccess := by
  intro s bytes addr v h
  have hadm : ¬ admitted bytes addr = true := fun ha => by
    obtain ⟨hbytes, haddr⟩ := admitted_true ha
    exact h.elim (· hbytes) (· haddr)
  exact ⟨by rw [hostWrite, if_neg hadm, State.recordFault], by rw [hostRead, if_neg hadm]; rfl⟩

/-- A command word is read in bit 8 and bits 2 to 0 only (30_encoding.md R90). -/
theorem decodeCommand_and (d : Word) : decodeCommand (d &&& 0x107) = decodeCommand d := by
  have hop : (d &&& 0x107).extractLsb' 0 3 = d.extractLsb' 0 3 := by
    rw [BitVec.extractLsb'_and, show (0x107 : Word).extractLsb' 0 3 = BitVec.allOnes 3 by decide, BitVec.and_allOnes]
  have hstart : (d &&& 0x107).getLsbD 8 = d.getLsbD 8 := by
    rw [BitVec.getLsbD_and, show (0x107 : Word).getLsbD 8 = true by decide, Bool.and_true]
  unfold decodeCommand
  rw [hop, hstart]

/-- Settles O47: the gaps between the regions are unmapped, the capacities being legal, and a mapped register's reserved
bits are outside the fields that STATUS has and a command word is decoded from. -/
theorem unmappedAccess : Obligations.UnmappedAccess := by
  refine ⟨fun s addr v hc ha hgap => ?_, fun s d => ?_⟩
  · obtain ⟨-, hcap, -⟩ := hc
    have hloc : locate s addr = .unmapped := locate_of_unmappedAt (by
      unfold State.unmappedAt State.inRegion State.outRegion
      omega)
    constructor
    · rw [hostWrite, if_pos (admitted_aligned ha), hloc, State.recordFault]
    · rw [hostRead, if_pos (admitted_aligned ha), hloc]
      rfl
  · obtain ⟨hread, hwrite, -, -, hlow, -, hhigh, -⟩ := statusRead s d
    refine ⟨hostRead_reg_any (r := .ctrl) (by decide) s, hread, hlow, hhigh, ?_, hwrite⟩
    calc hostWrite 4 (Reg.offset .ctrl) (d &&& 0x107) s
        = exec (decodeCommand (d &&& 0x107)) s := hostWrite_reg ..
      _ = exec (decodeCommand d) s := by rw [decodeCommand_and]
      _ = hostWrite 4 (Reg.offset .ctrl) d s := (hostWrite_reg .ctrl d s).symm

/-- Settles O48: region by region, BUSY selects the branch that ignores a write or draws the answer. -/
theorem busyAccesses : Obligations.BusyAccesses := by
  intro s v hb hc
  have hkeep {t : State} : Host.Outcome.next (φ := Fault) (ρ := Refusal) (if s.busy then s else t) = .next s := by
    rw [if_pos hb]
  have hread {r : Reg} (hr : r ≠ .outLen) := hostRead_reg_any hr s
  refine ⟨⟨(hostWrite_reg .ctrl v s).trans (exec_decodeCommand_busy hb v), (hostWrite_reg .bitWidth v s).trans hkeep,
      (hostWrite_reg .inLen v s).trans hkeep, (hostWrite_reg .arg v s).trans hkeep,
      (hostWrite_reg .count v s).trans hkeep, fun k hk => (hostWrite_inAddr hk v).trans hkeep⟩,
    ⟨?_, fun w hw => ?_⟩,
    hread (r := .ctrl) (by decide), hread (r := .status) (by decide), hread (r := .bitWidth) (by decide),
    hread (r := .inLen) (by decide), hread (r := .arg) (by decide), hread (r := .count) (by decide),
    hread (r := .capIn) (by decide), hread (r := .capOut) (by decide), fun k hk => hostRead_inAddr_value hk⟩
  · refine (hostRead_reg .outLen s).trans ?_
    rw [if_pos ⟨rfl, hb⟩]
    rfl
  · rw [hostRead_outAddr hc hw, if_pos hb]
    rfl

end Sys2Proof.Machine

/-! PROOFS. Decoding and encoding of the instructions (30_encoding.md R90 to R98). -/
namespace Sys2Proof.Machine

/-! ### Encoded instructions decode to themselves -/

/-- A command word's bytes, whatever follows them, decode to its instruction (30_encoding.md R90, R91). -/
theorem decode_bytesOfWord_append (d : Word) (rest : List Byte) :
    decode .command (bytesOfWord d ++ rest) = .ok (decodeCommand d, rest) := by
  simp [decode, bytesOfWord, wordOfBytes_bytesOfWord]

/-- A header, whatever follows it, decodes to the block it announces (30_encoding.md R95, R98). -/
theorem decode_varInt_append (h : Nat) (rest : List Byte) :
    decode .stream (varInt h ++ rest) = .ok (Instr.ofHeader h, rest) := by
  simp [decode, readVarInt_varInt]

/-- SET_OP's command word has START 0 and its operand in OP (30_encoding.md R90). -/
theorem decodeCommand_setOp (op : BitVec 3) : decodeCommand (commandWord op false) = .setOp op := by
  revert op
  decide

/-- Settles O18: a command word and a header are each read back whole, by the word of its bytes and by
`readVarInt_varInt`; what they announce is the instruction. -/
theorem decodeEncode : Obligations.DecodeEncode := by
  intro i rest
  cases i with
  | setOp op => exact (decode_bytesOfWord_append _ rest).trans (by rw [decodeCommand_setOp])
  | runBlock c => exact (decode_varInt_append (runHeader c) rest).trans (by rw [ofHeader_runHeader])
  | litBlock g => exact (decode_varInt_append (litHeader g) rest).trans (by rw [ofHeader_litHeader])
  | _ => exact decode_bytesOfWord_append _ rest

/-! ### The opcode map -/

/-- A word is the only one of its bytes. -/
theorem bytesOfWord_injective {d d' : Word} (h : bytesOfWord d = bytesOfWord d') : d = d' := by
  simp only [bytesOfWord, List.cons.injEq] at h
  obtain ⟨h0, h1, h2, h3, -⟩ := h
  rw [← wordOfBytes_bytesOfWord d, h0, h1, h2, h3, wordOfBytes_bytesOfWord]

/-- The bits of a command word that are read are its OP and START (30_encoding.md R90). -/
theorem and_eq_commandWord (d : Word) : d &&& 0x107 = commandWord (d.extractLsb' 0 3) (d.getLsbD 8) := by
  have hmask : ∀ i < 32, (0x107 : Word).getLsbD i = (decide (i < 3) || decide (i = 8)) := by decide
  have hstart : ∀ i < 32, ∀ b : Bool, (if b then 0x100 else 0 : Word).getLsbD i = (b && decide (i = 8)) := by decide
  apply BitVec.eq_of_getLsbD_eq
  intro i hi
  rw [commandWord, BitVec.getLsbD_and, BitVec.getLsbD_or, hmask i hi, hstart i hi, BitVec.getLsbD_setWidth,
    BitVec.getLsbD_extractLsb']
  by_cases h8 : i = 8
  · simp [h8]
  · simp [hi, h8, Bool.and_comm]

/-- Encoding what a command word decodes to gives the word with every ignored bit 0 (30_encoding.md R90). -/
theorem encode_decodeCommand (d : Word) : encode (decodeCommand d) = bytesOfWord (d &&& 0x107) := by
  have hword : ∀ (op : BitVec 3) (start : Bool),
      encode (decodeCommand (commandWord op start)) = bytesOfWord (commandWord op start) := by decide
  rw [← decodeCommand_and, and_eq_commandWord, hword]

/-- A command word's instruction is the one whose encoding it is in the bits that are read. -/
theorem and_eq_iff_decodeCommand {i : Instr} {w : Word} (hi : i.space = .command) (hw : encode i = bytesOfWord w)
    (d : Word) : d &&& 0x107 = w ↔ decodeCommand d = i := by
  constructor
  · rintro rfl
    have hdec := decodeEncode i []
    rw [hi, hw, List.append_nil, decode_bytesOfWord, decodeCommand_and] at hdec
    exact congrArg Prod.fst (Except.ok.inj hdec)
  · rintro rfl
    exact bytesOfWord_injective ((encode_decodeCommand d).symm.trans hw)

/-- Settles O19: each row's match is the word it encodes to (`and_eq_iff_decodeCommand`), and
decoding reads nothing else. -/
theorem opcodeMap : Obligations.OpcodeMap := by
  refine ⟨?_, ?_, ?_, ?_, ?_, ?_, ?_, ?_, fun d op => ?setOp, fun d d' h => ?ignored⟩
  case setOp =>
    have hw : commandWord op false = op.setWidth 32 := BitVec.or_zero
    exact and_eq_iff_decodeCommand (i := .setOp op) rfl (congrArg bytesOfWord hw) d
  case ignored => rw [← decodeCommand_and, h, decodeCommand_and]
  all_goals exact and_eq_iff_decodeCommand rfl (by decide)

/-- Settles O20: each is a closed computation of the decoder. -/
theorem wordsDecode : Obligations.WordsDecode := by
  unfold Obligations.WordsDecode
  decide

end Sys2Proof.Machine

/-! PROOFS. The command words: a CTRL write, its frame, and what its result reads (30_encoding.md R92, R93). -/
namespace Sys2Proof.Machine

/-! ### A CTRL write -/

/-- SET_OP stores OP while IDLE, and is ignored while BUSY (30_encoding.md R93, 20_memory.md R69). -/
theorem exec_setOp (op : BitVec 3) (s : State) :
    exec (.setOp op) s = .next (if s.busy then s else s.storeOp op) := rfl

/-- Settles O30: an IDLE block is not BUSY, and stores OP. -/
theorem setOpResult : Obligations.SetOpResult := by
  intro s op hidle
  rw [exec_setOp, if_neg (by simp [s.busy_of_phase_idle hidle]), State.storeOp]

/-- A step with a CTRL write pending executes the command word, the write no longer pending. -/
theorem step_ctrl {s : State} {d : Word} {rest : List Event}
    (h : s.pending = .hostWrite 4 (Reg.offset .ctrl) d :: rest) :
    step s = exec (decodeCommand d) (s.withPending rest) :=
  (step_pending h).trans (hostWrite_reg .ctrl d _)

/-- A START of an IDLE block that fails validation is its report (60_exceptions.md R213). -/
theorem start_invalid {s : State} {op : BitVec 3} (hb : s.busy = false) (hv : validate op s ≠ .ok) :
    start op s = s.report op (validate op s) := by
  simp [start, hb, hv]

/-- A START of an IDLE block that passes validation launches the engine (30_encoding.md R93). -/
theorem start_valid {s : State} {op : BitVec 3} (hb : s.busy = false) (hv : validate op s = .ok) :
    start op s = s.launch op (snapshot (commandOf op) s) (4 * inputCount (commandOf op) s) := by
  simp [start, hb, hv]

/-- Settles O23: BUSY ignores the write, and START and validation select among `storeOp`, `report` and `launch`. -/
theorem startEffect : Obligations.StartEffect := by
  intro s d rest hpend
  rw [step_ctrl hpend]
  refine ⟨fun hb => exec_decodeCommand_busy (s := s.withPending rest) hb d, fun hb h8 => ?_, fun hb h8 hv => ?_,
    fun hb h8 hv => ?_⟩
  · rw [exec_decodeCommand_setOp d _ h8, State.withPending_busy, if_neg (by simp [hb])]
    rfl
  · rw [exec_decodeCommand_start d _ h8, start_invalid (s := s.withPending rest) hb hv]
    rfl
  · rw [exec_decodeCommand_start d _ h8, start_valid (s := s.withPending rest) hb hv]
    exact ⟨_, rfl⟩

/-! ### The frame -/

/-- A command word is SET_OP, or the START of an OP (30_encoding.md R91). -/
theorem exec_command {i : Instr} (hi : i.space = .command) (s : State) :
    (∃ op, i = .setOp op ∧ exec i s = .next (if s.busy then s else s.storeOp op)) ∨
    ((∀ op, i ≠ .setOp op) ∧ ∃ op, exec i s = .next (start op s)) := by
  cases i with
  | setOp op => exact .inl ⟨op, rfl, exec_setOp op s⟩
  | runBlock c => cases hi
  | litBlock g => cases hi
  | _ => exact .inr ⟨nofun, _, rfl⟩

/-- Everything a command word can do: nothing, or store OP; and one that is not SET_OP, report a validation error while
IDLE, or launch. -/
theorem exec_command_next {i : Instr} {s t : State} (hi : i.space = .command) (h : exec i s = .next t) :
    t = s ∨ (∃ op, t = s.storeOp op) ∨
    (∀ op, i ≠ .setOp op) ∧
      ((∃ op code, s.busy = false ∧ code ≠ .ok ∧ t = s.report op code) ∨ ∃ op S n, t = s.launch op S n) := by
  rcases exec_command hi s with ⟨op, -, he⟩ | ⟨hne, op, he⟩ <;> cases he.symm.trans h
  · cases s.busy
    · exact .inr (.inl ⟨op, rfl⟩)
    · exact .inl rfl
  · rcases start_cases op s with ⟨-, hs⟩ | ⟨hb, hv, hs⟩ | ⟨-, -, hs⟩
    · exact .inl hs
    · exact .inr (.inr ⟨hne, .inl ⟨op, _, hb, hv, hs⟩⟩)
    · exact .inr (.inr ⟨hne, .inr ⟨op, _, _, hs⟩⟩)

/-- Settles O32: the named updates a command word makes (`exec_command_next`) have that frame. -/
theorem commandFrame : Obligations.CommandFrame := by
  intro s t i hi h
  rcases exec_command_next hi h with rfl | ⟨op, rfl⟩ | ⟨hne, ⟨op, code, hb, hcode, rfl⟩ | ⟨op, S, n, rfl⟩⟩
  · simp
  · simp
  · simp [hne, hb, hcode]
  · simp [hne]

/-! ### The operands of a result -/

/-- Settles O57: the snapshot holds the operand registers, and for BITPACK and HYBRID the words written. -/
theorem resultReadsOperandsOnly : Obligations.ResultReadsOperandsOnly := by
  intro s s' k
  refine ⟨fun harg => ?_, fun harg hcount hbw => ?_, fun ls hs hs' hbw => ?_⟩
  · simp only [result, snapshot_cmd, snapshot_arg, harg]
  · simp only [result, snapshot_cmd, snapshot_arg, snapshot_count, snapshot_bw, harg, hcount, hbw]
  · have hvalues {cmd : Command} (hn : ∀ u, inputCount cmd u = u.inLen.toNat) :
        (snapshot cmd s').values = (snapshot cmd s).values := by
      rw [Snapshot.values, Snapshot.values, (snapshot_inputIs hs (hn s)).1, (snapshot_inputIs hs' (hn s')).1]
    constructor <;> simp only [result, snapshot_cmd, snapshot_bw, hbw] <;> rw [hvalues fun _ => rfl]

/-! ### WAIT -/

/-- Bit 1 of STATUS is DONE (10_state.md R23). -/
theorem statusWord_bit1 (s : State) : (statusWord s).getLsbD 1 = s.done :=
  (fields_of_statusLayout s.busy s.done s.err.code _ rfl).2.1

/-- A poll of a DONE block leaves the loop, a poll of one that is not goes on (30_encoding.md R103). -/
theorem pollStatus_next (again : Event) (s : State) :
    pollStatus again s = .next
      { s with reply := some (statusWord s), pending := if s.done then s.pending else again :: s.pending } := by
  rw [pollStatus_eq, statusWord_bit1]
  rfl

/-- WAIT polls, unless the block is BUSY and no poll is left before the completion (log entry 23). -/
theorem hostWait_poll {s : State} {n : Nat} (h : s.busy = false ∨ n ≠ 0) :
    hostWait n s = pollStatus (wait (n - 1)) s := by
  cases n with
  | zero => exact if_neg (by simp [h.resolve_right (· rfl)])
  | succ n => rfl

/-- A step of a WAIT that polls answers STATUS, and the WAIT stays pending unless the block is DONE. -/
theorem step_wait_poll {s : State} {n : Nat} {rest : List Event} (hpend : s.pending = wait n :: rest)
    (h : s.busy = false ∨ n ≠ 0) :
    step s = .next
      { s with reply := some (statusWord s), pending := if s.done then rest else wait (n - 1) :: rest } := by
  calc step s = hostWait n (s.withPending rest) := step_pending hpend
    _ = pollStatus (wait (n - 1)) (s.withPending rest) := hostWait_poll h
    _ = _ := pollStatus_next ..

/-- Of a DONE block WAIT returns at its next poll. -/
theorem step_wait_done {s : State} {n : Nat} {rest : List Event} (hpend : s.pending = wait n :: rest)
    (hb : s.busy = false) (hd : s.done = true) :
    step s = .next { s with reply := some (statusWord s), pending := rest } := by
  rw [step_wait_poll hpend (.inl hb), if_pos hd]

/-- Of a block that is not DONE WAIT goes on after a poll. -/
theorem step_wait_again {s : State} {n : Nat} {rest : List Event} (hpend : s.pending = wait n :: rest)
    (h : s.busy = false ∨ n ≠ 0) (hd : s.done = false) :
    step s = .next { s with reply := some (statusWord s), pending := wait (n - 1) :: rest } := by
  rw [step_wait_poll hpend h, if_neg (by simp [hd])]

/-- Of a BUSY block with no poll left before it, the completion step is taken, the WAIT still pending. -/
theorem step_wait_complete {s : State} {rest : List Event} (hpend : s.pending = wait 0 :: rest) (hb : s.busy = true) :
    step s = complete s := by
  have hself : (s.withPending rest).withPending (wait 0 :: rest) = s := by
    rw [← hpend]
    rfl
  calc step s = hostWait 0 (s.withPending rest) := step_pending hpend
    _ = complete ((s.withPending rest).withPending (wait 0 :: rest)) := if_pos hb
    _ = complete s := by rw [hself]

/-- Of a BUSY block WAIT returns after its polls, the completion and one poll more (10_state.md R40, log entry 23). -/
theorem steps_wait_busy {n : Nat} {s : State} {rest : List Event} (hpend : s.pending = wait n :: rest)
    (hb : s.busy = true) (hd : s.done = false) :
    ∃ u, steps (n + 2) s = .next u ∧ u.busy = false ∧ u.done = true ∧ u.reply = some (statusWord u) ∧
      u.pending = rest := by
  induction n generalizing s with
  | zero =>
    obtain ⟨S, w, hp⟩ := s.busy_eq_true_iff.1 hb
    rw [steps_succ _ ((step_wait_complete hpend hb).trans (complete_busy hp))]
    exact ⟨_, steps_succ 0 (step_wait_done hpend rfl rfl), rfl, rfl, rfl, rfl⟩
  | succ n ih =>
    rw [steps_succ _ (step_wait_again hpend (.inr n.succ_ne_zero) hd)]
    exact ih rfl hb hd

/-- `START MNEMONIC` writes START 1 and the command's OP (30_encoding.md R90, R103). -/
theorem commandWord_start (op : BitVec 3) :
    (commandWord op true).getLsbD 8 = true ∧ (commandWord op true).extractLsb' 0 3 = op := by
  revert op
  decide

/-- A `START MNEMONIC` of an IDLE block that fails validation reports its code (60_exceptions.md R213). -/
theorem step_startCmd_invalid {s : State} {c : Command} {rest : List Event} (hpend : s.pending = startCmd c :: rest)
    (hb : s.busy = false) (hv : validate c.code s ≠ .ok) :
    step s = .next
      { s with op := c.code, done := true, err := validate c.code s, outLen := 0, pending := rest } := by
  obtain ⟨h8, hop⟩ := commandWord_start c.code
  obtain ⟨-, -, hreport, -⟩ := startEffect s _ rest hpend
  rw [hop] at hreport
  exact hreport hb h8 hv

/-- Settles O58: clause by clause, what a poll finds and which step of WAIT it is. -/
theorem waitReturns : Obligations.WaitReturns := by
  intro s n rest
  refine ⟨step_wait_done, fun c hpend hb hv => ?_, fun hpend hd => step_wait_again hpend (.inr n.succ_ne_zero) hd,
    step_wait_complete, fun hpend hb hd => ?_, steps_wait_busy⟩
  · rw [steps_succ _ (step_startCmd_invalid hpend hb hv)]
    exact ⟨_, steps_succ 0 (step_wait_done rfl hb rfl), rfl, rfl, rfl, rfl, rfl⟩
  · rw [step_wait_again hpend (.inl hb) hd, Nat.zero_sub, ← hpend]

end Sys2Proof.Machine

/-! PROOFS. VarInt: its length, its bytes, what it decodes to, and the VARINT command (40_varint.md). -/
namespace Sys2Proof.Machine

/-! ### The bytes of a VarInt -/

/-- A VarInt of one 7-bit group (40_varint.md R110). -/
theorem varInt_of_lt {n : Nat} (h : n < 128) : varInt n = [BitVec.ofNat 8 n] := by
  rw [varInt_eq, if_pos (by omega), Nat.mod_eq_of_lt h]

/-- A VarInt of more than one 7-bit group (40_varint.md R110). -/
theorem varInt_of_le {n : Nat} (h : 128 ≤ n) :
    varInt n = BitVec.ofNat 8 (n % 128 + 128) :: varInt (n / 128) := by
  rw [varInt_eq, if_neg (by omega)]

/-- A VarInt has at least one byte. -/
theorem varInt_length_pos (n : Nat) : 0 < (varInt n).length := List.length_pos_of_ne_nil (varInt_ne_nil n)

/-- One 7-bit group more. -/
theorem two_pow_group_succ (k : Nat) : 2 ^ (7 * (k + 1)) = 2 ^ (7 * k) * 128 := pow_add 2 (7 * k) 7

/-- A byte of a VarInt is its 7-bit group, with bit 7 set in every byte but the last (40_varint.md R113). -/
theorem varInt_getElem? {n k : Nat} (hk : k < (varInt n).length) :
    (varInt n)[k]? =
      some (BitVec.ofNat 8 (n / 2 ^ (7 * k) % 128 + if k + 1 < (varInt n).length then 128 else 0)) := by
  induction k generalizing n with
  | zero =>
    rcases Nat.lt_or_ge n 128 with hn | hn
    · simp [varInt_of_lt hn, Nat.mod_eq_of_lt hn]
    · simp [varInt_of_le hn, varInt_length_pos]
  | succ k ih =>
    rcases Nat.lt_or_ge n 128 with hn | hn
    · simp [varInt_of_lt hn] at hk
    · rw [varInt_of_le hn] at hk ⊢
      simp only [List.length_cons, Nat.add_lt_add_iff_right, List.getElem?_cons_succ] at hk ⊢
      rw [two_pow_group_succ, Nat.mul_comm, ← Nat.div_div_eq_div_mul, ih hk]

/-- The last 7-bit group of a VarInt is not 0, but for `VarInt(0)`: no shorter form spells the integer (R113). -/
theorem varInt_getLast?_ne_zero {n : Nat} (hn : n ≠ 0) : (varInt n).getLast? ≠ some 0 := by
  induction n using Nat.strongRecOn with
  | ind n ih =>
    rcases Nat.lt_or_ge n 128 with h | h
    · have hbyte : BitVec.ofNat 8 n ≠ 0 := by bv_omega
      simpa [varInt_of_lt h] using hbyte
    · obtain ⟨b, bs, hbs⟩ := List.exists_cons_of_ne_nil (varInt_ne_nil (n / 128))
      rw [varInt_of_le h, hbs, List.getLast?_cons_cons, ← hbs]
      exact ih _ (by omega) (by omega)

/-- A byte sequence begins with at most one VarInt, since reading it gives back the integer and what follows. -/
theorem varInt_append_inj {a b : Nat} {r r' : List Byte} (h : varInt a ++ r = varInt b ++ r') : a = b ∧ r = r' := by
  have hread := readVarInt_varInt a r
  rw [h, readVarInt_varInt] at hread
  simpa [eq_comm] using hread

/-- Settles O3: reading a VarInt undoes the loop's turns one by one. -/
theorem varIntRoundTrip : Obligations.VarIntRoundTrip := readVarInt_varInt

/-- Settles O2: the bytes by induction on their place, the rest from what a VarInt is read back as. -/
theorem varIntClosedForm : Obligations.VarIntClosedForm := by
  refine ⟨fun _ _ => varInt_getElem?, fun _ => varInt_getLast?_ne_zero, fun a b h => ?injective,
    fun a b more h => ?nothingFollows⟩
  case injective => exact (varInt_append_inj (congrArg (· ++ []) h)).1
  case nothingFollows => exact (varInt_append_inj (h.symm.trans (List.append_nil _).symm)).2

/-! ### The length of a VarInt -/

/-- A VarInt fits into `l + 1` bytes exactly if its integer fits into as many 7-bit groups. -/
theorem varInt_length_le_succ_iff (n l : Nat) : (varInt n).length ≤ l + 1 ↔ n < 2 ^ (7 * (l + 1)) := by
  induction l generalizing n with
  | zero =>
    rcases Nat.lt_or_ge n 128 with hn | hn
    · simp [varInt_of_lt hn, hn]
    · simp [varInt_of_le hn, varInt_ne_nil, hn]
  | succ l ih =>
    rw [two_pow_group_succ]
    rcases Nat.lt_or_ge n 128 with hn | hn
    · have := Nat.two_pow_pos (7 * (l + 1))
      exact iff_of_true (by simp [varInt_of_lt hn]) (by omega)
    · rw [varInt_of_le hn, List.length_cons, Nat.add_le_add_iff_right, ih, Nat.div_lt_iff_lt_mul (by decide)]

/-- The range of the integers whose VarInt has `l + 2` bytes. -/
theorem varInt_length_eq {n l : Nat} (hlo : 2 ^ (7 * (l + 1)) ≤ n) (hhi : n < 2 ^ (7 * (l + 2))) :
    (varInt n).length = l + 2 := by
  have hle := (varInt_length_le_succ_iff n (l + 1)).2 hhi
  have hgt := mt (varInt_length_le_succ_iff n l).1 (Nat.not_lt.2 hlo)
  omega

/-- The length law: one byte for each 7 bits begun, and at least one (40_varint.md R112). -/
theorem varInt_length_eq_max {n k : Nat} (hk : n < 2 ^ k) (hleast : ∀ j, n < 2 ^ j → k ≤ j) :
    (varInt n).length = max 1 (ceilDiv k 7) := by
  have hbits (j : Nat) : n < 2 ^ j ↔ k ≤ j :=
    ⟨hleast j, fun h => hk.trans_le (Nat.pow_le_pow_right (by decide) h)⟩
  refine eq_of_forall_ge_iff fun l => ?_
  cases l with
  | zero => simp [varInt_ne_nil]
  | succ l =>
    rw [varInt_length_le_succ_iff, hbits, ceilDiv]
    omega

/-- Settles O1: a length is the least number of 7-bit groups that hold the integer. -/
theorem varIntLength : Obligations.VarIntLength := by
  refine ⟨fun _ _ => varInt_length_eq_max, fun n hn => ?_, fun n hlo hhi => ?_, fun n hlo hhi => ?_,
    fun n hlo hhi => ?_, fun n hlo hhi => ?_⟩
  · simp [varInt_of_lt (Nat.lt_succ_of_le hn)]
  · exact varInt_length_eq (l := 0) hlo (by omega)
  · exact varInt_length_eq (l := 1) hlo (by omega)
  · exact varInt_length_eq (l := 2) hlo (by omega)
  · exact varInt_length_eq (l := 3) hlo (by omega)

/-! ### The VARINT command -/

/-- The VarInt of a word has at most 5 bytes (40_varint.md R114). -/
theorem varInt_toNat_length_le (v : Word) : (varInt v.toNat).length ≤ 5 :=
  (varInt_length_le_succ_iff _ 4).2 (v.isLt.trans (by decide))

/-- VARINT passes validation whatever the operands (60_exceptions.md R212). -/
theorem validate_varint (s : State) : validate 0 s = .ok := by simp [validate, validateOperands]

/-- VARINT launches the engine from every IDLE state (30_encoding.md R93). -/
theorem exec_varint_idle {s : State} (hidle : s.idle) :
    exec .varint s = .next (s.launch 0 (snapshot .varint s) 0) :=
  congrArg Host.Outcome.next (start_valid (s.busy_of_phase_idle hidle) (validate_varint s))

/-- A completion seen from the state before the launch, which has the same memory and OUT_MAX. -/
theorem State.Completed.of_launch {s u : State} {op : BitVec 3} {S : Snapshot} {n : Nat} {e : List Byte}
    (h : (s.launch op S n).Completed u e) : s.Completed u e :=
  ⟨h.idle, h.done, h.err, h.outLen, h.out, h.rest⟩

/-- Settles O25: VARINT launches and reads no input, and its result fits into OUT_MEM. -/
theorem varintResult : Obligations.VarintResult := by
  refine ⟨by decide, fun s hidle hcaps => ?_⟩
  obtain ⟨-, -, hcap, -, -⟩ := hcaps
  have hpos := varInt_length_pos s.arg.toNat
  have hle := varInt_toNat_length_le s.arg
  obtain ⟨u, hu, hcomp, -, -, -, -, -, -, -, -, -, -, hfaults⟩ :=
    completionEffect (s.launch 0 (snapshot .varint s) 0) _ rfl
  have hdone : s.Completed u (varInt s.arg.toNat) := hcomp.of_launch
  have herr : u.err = .ok := hdone.err.trans (if_neg (by omega))
  have hlen : u.outLen.toNat = (varInt s.arg.toNat).length := hdone.outLen.trans (Nat.min_eq_left (by omega))
  exact ⟨_, u, exec_varint_idle hidle, rfl, hu, hdone, herr, hfaults, hlen, by omega, by omega⟩

end Sys2Proof.Machine

/-! PROOFS. RunEnc: its cases, its round trip, and the RUN command (41_run.md). -/
namespace Sys2Proof.Machine

/-! ### Little-endian byte sequences -/

/-- Dropping `t + 1` bytes of a natural drops one, then `t`. -/
theorem div_two_pow_byte_succ (v t : Nat) : v / 2 ^ (8 * (t + 1)) = v / 256 / 2 ^ (8 * t) := by
  rw [Nat.div_div_eq_div_mul, Nat.mul_succ, pow_add, mul_comm]
  rfl

/-- Byte `t` of `LE_n(v)` is byte `t` of `v` (00_scope.md R13). -/
theorem leBytes_getElem? {n t : Nat} (v : Nat) (ht : t < n) :
    (leBytes n v)[t]? = some (BitVec.ofNat 8 (v / 2 ^ (8 * t) % 256)) := by
  induction n generalizing v t with
  | zero => omega
  | succ n ih =>
    cases t with
    | zero => simp [leBytes]
    | succ t => rw [leBytes, List.getElem?_cons_succ, ih _ (by omega), div_two_pow_byte_succ]

/-- `LE_n(v)` spells the lowest `n` bytes of `v` (00_scope.md R13, 30_encoding.md R97). -/
theorem leValue_leBytes (n v : Nat) : leValue (leBytes n v) = v % 2 ^ (8 * n) := by
  induction n generalizing v with
  | zero => simp [leBytes, leValue, Nat.mod_one]
  | succ n ih =>
    rw [leBytes, leValue, ih, BitVec.toNat_ofNat, Nat.mod_mod, Nat.mul_succ, Nat.add_comm (8 * n), pow_add, Nat.mod_mul]
    rfl

/-! ### The cases of RunEnc -/

/-- The payload of a run block: `LE_nb(v)`, or as many drawn bytes where `v` does not fit (41_run.md R134, R135). -/
def runPayload (k v nb : Nat) : List Byte := if v < 2 ^ (8 * nb) then leBytes nb v else drawBytes k nb

theorem runPayload_of_lt {v nb : Nat} (k : Nat) (hv : v < 2 ^ (8 * nb)) : runPayload k v nb = leBytes nb v := if_pos hv

@[simp] theorem runPayload_length (k v nb : Nat) : (runPayload k v nb).length = nb := by
  unfold runPayload
  split
  · exact leBytes_length nb v
  · exact drawBytes_length k nb

/-- An empty run is no block at all (41_run.md R131). -/
@[simp] theorem runEnc_zero (k v bw : Nat) : runEnc k v 0 bw = [] := rfl

/-- A run block is its header and its payload; of width 0 the payload is empty (41_run.md R130). -/
theorem runEnc_of_ne_zero {c : Nat} (k v bw : Nat) (hc : c ≠ 0) :
    runEnc k v c bw = varInt (2 * c) ++ runPayload k v (ceilDiv bw 8) := by
  simp only [runEnc, if_neg hc]
  split
  next hnb => rw [List.eq_nil_of_length_eq_zero ((runPayload_length ..).trans hnb), List.append_nil]
  next => rw [runPayload, apply_ite (varInt (2 * c) ++ ·)]

/-- Settles O4: `runPayload` has the width's bytes, and is `LE_nb(v)` where `v` fits. -/
theorem runEncCases : Obligations.RunEncCases := by
  refine fun k v c bw => ⟨fun hc => hc ▸ runEnc_zero k v bw,
    fun hc => ⟨_, runEnc_of_ne_zero k v bw hc, runPayload_length .., fun hv t ht => ?_⟩⟩
  rw [runPayload_of_lt k hv, leBytes_getElem? v ht]

/-! ### The round trip of a run block -/

/-- The payload of width `bw` has room for `bw` bits (41_run.md R134). -/
theorem le_mul_ceilDiv (bw : Nat) : bw ≤ 8 * ceilDiv bw 8 := by unfold ceilDiv; omega

/-- A reader takes a run block as its header announces it, the value little-endian (30_encoding.md R96). -/
theorem readBlock_run {bw : Nat} {p : List Byte} (c : Nat) (rest : List Byte) (hp : p.length = ceilDiv bw 8) :
    readBlock bw (varInt (2 * c) ++ p ++ rest) = some (.run c (leValue p), rest) := by
  have hdec : decode .stream (varInt (2 * c) ++ (p ++ rest)) = .ok (.runBlock c, p ++ rest) :=
    decodeEncode (.runBlock c) (p ++ rest)
  simp [readBlock, hdec, ← hp]

/-- Settles O5: the header is read back whole, and the payload of a value that fits spells it. -/
theorem runRoundTrip : Obligations.RunRoundTrip := by
  refine fun k v c bw rest hc hv => ⟨?_, rfl⟩
  have hfit : v < 2 ^ (8 * ceilDiv bw 8) := hv.trans_le (Nat.pow_le_pow_right (by decide) (le_mul_ceilDiv bw))
  rw [runEnc_of_ne_zero k v bw hc.ne', readBlock_run c rest (runPayload_length ..), runPayload_of_lt k hfit,
    leValue_leBytes, Nat.mod_eq_of_lt hfit]

/-! ### The RUN command -/

/-- RUN's result has at most 5 header bytes and 4 payload bytes (41_run.md R136). -/
theorem runEnc_toNat_length_le (k v : Nat) (c : Word) {bw : Nat} (hbw : bw ≤ 32) :
    (runEnc k v c.toNat bw).length ≤ 9 := by
  by_cases hc : c.toNat = 0
  · simp [hc]
  · have hheader : (varInt (2 * c.toNat)).length ≤ 5 := (varInt_length_le_succ_iff _ 4).2 (by omega)
    have hpayload : ceilDiv bw 8 ≤ 4 := by unfold ceilDiv; omega
    rw [runEnc_of_ne_zero k v bw hc, List.length_append, runPayload_length]
    omega

/-- A width above 32 is the first thing a command that has a width is turned away for (60_exceptions.md R212). -/
theorem validate_badBw {op : BitVec 3} {s : State} (hop : op = 1 ∨ op = 2 ∨ op = 3) (hbw : 32 < s.bitWidth.toNat) :
    validate op s = .badBw := by
  have hlt : ¬ 4 ≤ op.toNat := by rcases hop with rfl | rfl | rfl <;> decide
  rw [validate, validateOperands, if_neg hlt, if_pos ⟨hop, hbw⟩]

/-- RUN passes validation if its width does (60_exceptions.md R212). -/
theorem validate_run {s : State} (hbw : s.bitWidth.toNat ≤ 32) : validate 1 s = .ok := by
  simp [validate, validateOperands, Nat.not_lt.2 hbw]

/-- RUN of a legal width launches the engine from every IDLE state (30_encoding.md R93). -/
theorem exec_run_idle {s : State} (hidle : s.idle) (hbw : s.bitWidth.toNat ≤ 32) :
    exec .run s = .next (s.launch 1 (snapshot .run s) 0) :=
  congrArg Host.Outcome.next (start_valid (s.busy_of_phase_idle hidle) (validate_run hbw))

/-- The completion of a launch whose inputs were written and whose result OUT_MEM has room for (10_state.md R42). -/
theorem complete_launch {s : State} {S : Snapshot} {n : Nat} (op : BitVec 3) (hwritten : S.unwritten = false)
    (hroom : (result S (s.draws + n)).length ≤ s.capOut.toNat) :
    ∃ u, complete (s.launch op S n) = .next u ∧ s.Completed u (result S (s.draws + n)) ∧ u.err = .ok ∧
      u.faults = s.faults ∧ u.outLen.toNat = (result S (s.draws + n)).length := by
  obtain ⟨u, hu, hcomp, -, -, -, -, -, -, -, -, -, -, hfaults⟩ := completionEffect (s.launch op S n) S rfl
  have hdone : s.Completed u (result S (s.draws + n)) := hcomp.of_launch
  exact ⟨u, hu, hdone, hdone.err.trans (if_neg (Nat.not_lt.2 hroom)), hfaults.trans (by simp [hwritten]),
    hdone.outLen.trans (Nat.min_eq_left hroom)⟩

/-- Settles O26: RUN of a legal width launches, and its result fits into OUT_MEM; of any other it is reported. -/
theorem runResult : Obligations.RunResult := by
  refine ⟨by decide, fun s hidle hcaps => ⟨fun hbw => ?_, fun hbw => ?_⟩⟩
  · obtain ⟨-, -, hcap, -, -⟩ := hcaps
    have hle := runEnc_toNat_length_le s.draws s.arg.toNat s.count hbw
    obtain ⟨u, hu, hdone, herr, hfaults, hlen⟩ :=
      complete_launch (s := s) (S := snapshot .run s) (n := 0) 1 rfl (hle.trans (by omega))
    exact ⟨_, u, exec_run_idle hidle hbw, rfl, hu, hdone, herr, hfaults, hlen, hlen.trans_le hle⟩
  · have hv : validate 1 s = .badBw := validate_badBw (.inl rfl) hbw
    have hstart := start_invalid (s.busy_of_phase_idle hidle) (hv.trans_ne (by decide))
    exact congrArg Host.Outcome.next (hstart.trans (congrArg (s.report 1 ·) hv))

end Sys2Proof.Machine

/-! PROOFS. BitPack: the packing loop and its closed form, the round trip, and the BITPACK command (42_bitpack.md). -/
namespace Sys2Proof.Machine

/-! ### Little-endian bytes of a split natural -/

/-- The low bits of a natural with `p` ORed in past them. -/
theorem or_shiftLeft_mod {i j : Nat} (v p : Nat) (h : i ≤ j) : (v ||| p <<< j) % 2 ^ i = v % 2 ^ i := by
  have hp : p <<< j % 2 ^ i = 0 := by
    rw [Nat.shiftLeft_eq]
    exact Nat.mod_eq_zero_of_dvd ((pow_dvd_pow 2 h).mul_left p)
  rw [Nat.or_mod_two_pow, hp, Nat.or_zero]

/-- Dropping low bits of a natural with `p` ORed in past them. -/
theorem or_shiftLeft_div {i j : Nat} (v p : Nat) (h : i ≤ j) :
    (v ||| p <<< j) / 2 ^ i = v / 2 ^ i ||| p <<< (j - i) := by
  rw [Nat.or_div_two_pow, Nat.shiftLeft_sub p h, Nat.shiftRight_eq_div_pow]

/-- The first `m` bytes of a natural, and then those of what is left of it. -/
theorem leBytes_add (m n v : Nat) : leBytes (m + n) v = leBytes m v ++ leBytes n (v / 2 ^ (8 * m)) := by
  induction m generalizing v with
  | zero => simp [leBytes]
  | succ m ih => rw [Nat.succ_add, leBytes, leBytes, ih, div_two_pow_byte_succ, List.cons_append]

/-- The bytes of 0 are 0. -/
theorem leBytes_zero (n : Nat) : leBytes n 0 = List.replicate n 0 := by
  induction n with
  | zero => rfl
  | succ n ih => rw [leBytes, Nat.zero_div, ih, List.replicate_succ]; rfl

/-- Padding with 0 bytes does not change the natural that is spelled (42_bitpack.md R155). -/
theorem padTo_leBytes {m req v : Nat} (hv : v < 2 ^ (8 * m)) (hm : m ≤ req) :
    padTo (leBytes m v) req = leBytes req v := by
  obtain ⟨n, rfl⟩ := Nat.exists_eq_add_of_le hm
  rw [leBytes_add, Nat.div_eq_of_lt hv, leBytes_zero, padTo, leBytes_length, Nat.add_sub_cancel_left]

/-- The first `n` bytes of a natural do not depend on the bits past them. -/
theorem leBytes_or_shiftLeft {n j : Nat} (v p : Nat) (h : 8 * n ≤ j) : leBytes n (v ||| p <<< j) = leBytes n v := by
  induction n generalizing v j with
  | zero => rfl
  | succ n ih =>
    have hlow : (v ||| p <<< j) % 256 = v % 256 := or_shiftLeft_mod (i := 8) v p (by omega)
    have hrest : (v ||| p <<< j) / 256 = v / 256 ||| p <<< (j - 8) := or_shiftLeft_div (i := 8) v p (by omega)
    rw [leBytes, leBytes, hlow, hrest, ih _ (by omega)]

/-! ### The packing loop -/

/-- Fewer than 8 valid bits are held, and none past them (42_bitpack.md R153, marked derived). -/
structure BitAcc.Legal (a : BitAcc) : Prop where
  nbits : a.nbits < 8
  acc : a.acc < 2 ^ a.nbits

/-- The accumulator `(0, 0)` that `Pack` begins with. -/
theorem BitAcc.legal_zero : BitAcc.Legal { acc := 0, nbits := 0 } := ⟨by decide, by decide⟩

/-- With a value below `2^bw` ORed in, the accumulator holds `bw` valid bits more (42_bitpack.md R153). -/
theorem BitAcc.Legal.or_lt {a : BitAcc} (ha : a.Legal) {bw v : Nat} (hv : v < 2 ^ bw) :
    a.acc ||| v <<< a.nbits < 2 ^ (a.nbits + bw) := by
  refine Nat.or_lt_two_pow (ha.acc.trans_le (Nat.pow_le_pow_right (by decide) (by omega))) ?_
  rw [Nat.add_comm]
  exact Nat.shiftLeft_lt hv

/-- Packing a value below `2^bw` leaves fewer than 8 valid bits, and none past them. -/
theorem BitAcc.Legal.packValue {a : BitAcc} (ha : a.Legal) {bw v : Nat} (hv : v < 2 ^ bw) :
    (packValue bw v a).2.Legal := by
  rw [packValue_eq]
  refine ⟨Nat.mod_lt _ (by decide), Nat.div_lt_of_lt_mul ?_⟩
  rw [← pow_add, Nat.div_add_mod]
  exact ha.or_lt hv

/-- Packing values below `2^bw` leaves fewer than 8 valid bits, and none past them. -/
theorem BitAcc.Legal.packAcc {bw : Nat} {ls : List Nat} (hls : ∀ x ∈ ls, x < 2 ^ bw) {a : BitAcc} (ha : a.Legal) :
    (packAcc bw ls a).Legal := by
  induction ls generalizing a with
  | nil => exact ha
  | cons v ls ih =>
    obtain ⟨hv, hls⟩ := List.forall_mem_cons.1 hls
    exact ih hls (ha.packValue hv)

/-- Settles O6: every packed value keeps the accumulator legal, and the next one adds at most `bw` bits. -/
theorem accumulatorBound : Obligations.AccumulatorBound := by
  intro bw v ls hls hv
  have ha := BitAcc.legal_zero.packAcc hls
  have hbits : (packAcc bw ls { acc := 0, nbits := 0 }).nbits ≤ 7 := Nat.le_of_lt_succ ha.nbits
  exact ⟨hbits, ha.acc, (ha.or_lt hv).trans_le (Nat.pow_le_pow_right (by decide) (by omega))⟩

/-- The literals ORed together, each `bw` bits past the one before it, too wide or not (42_bitpack.md R153). -/
def packedOr (bw : Nat) : List Nat → Nat
  | [] => 0
  | v :: vs => v ||| packedOr bw vs <<< bw

/-- `Flush` is the byte of the bits held, if there are any (42_bitpack.md R154). -/
theorem flushBits_eq {a : BitAcc} (h : a.nbits < 8) : flushBits a = leBytes (ceilDiv a.nbits 8) a.acc := by
  unfold flushBits
  split
  · rw [show ceilDiv a.nbits 8 = 1 by unfold ceilDiv; omega]
    rfl
  · rw [show ceilDiv a.nbits 8 = 0 by unfold ceilDiv; omega]
    rfl

/-- The loop of `Pack` emits the bytes of the bits held and then of the literals ORed together, `bw` bits each. -/
theorem packLoop_eq (bw : Nat) (ls : List Nat) {a : BitAcc} (h : a.nbits < 8) :
    packLoop bw ls a =
      leBytes (ceilDiv (a.nbits + ls.length * bw) 8) (a.acc ||| packedOr bw ls <<< a.nbits) := by
  induction ls generalizing a with
  | nil => simp [packLoop, packedOr, flushBits_eq h]
  | cons v ls ih =>
    have hwhole : 8 * ((a.nbits + bw) / 8) ≤ a.nbits + bw := Nat.mul_div_le ..
    have hbits : ceilDiv (a.nbits + (v :: ls).length * bw) 8 =
        (a.nbits + bw) / 8 + ceilDiv ((a.nbits + bw) % 8 + ls.length * bw) 8 := by
      rw [List.length_cons, Nat.succ_mul]
      unfold ceilDiv
      omega
    have hor : a.acc ||| packedOr bw (v :: ls) <<< a.nbits =
        (a.acc ||| v <<< a.nbits) ||| packedOr bw ls <<< (a.nbits + bw) := by
      rw [packedOr, Nat.shiftLeft_or_distrib, ← Nat.shiftLeft_add, Nat.add_comm bw, Nat.or_assoc]
    rw [packLoop, packValue_eq, ih (Nat.mod_lt _ (by decide)), hbits, hor, leBytes_add,
      leBytes_or_shiftLeft _ _ hwhole, or_shiftLeft_div _ _ hwhole, ← Nat.mod_eq_sub]

/-- `Pack` in closed form, the literals too wide or not. -/
theorem pack_eq (ls : List Nat) (bw : Nat) : pack ls bw = leBytes (ceilDiv (ls.length * bw) 8) (packedOr bw ls) := by
  rw [pack, packLoop_eq bw ls BitAcc.legal_zero.nbits]
  simp

/-- `Pack` emits a byte for each 8 bits begun (42_bitpack.md R156). -/
@[simp] theorem pack_length (ls : List Nat) (bw : Nat) : (pack ls bw).length = ceilDiv (ls.length * bw) 8 := by
  rw [pack_eq, leBytes_length]

/-! ### The block -/

/-- The groups have room for all the literals (42_bitpack.md R151). -/
theorem le_mul_numGroups (len : Nat) : len ≤ 8 * numGroups len := le_mul_ceilDiv len

/-- What `Pack` emits fits into the groups' bytes (42_bitpack.md R156). -/
theorem pack_length_le (ls : List Nat) (bw : Nat) : (pack ls bw).length ≤ numGroups ls.length * bw := by
  have hroom : ls.length * bw ≤ 8 * numGroups ls.length * bw := Nat.mul_le_mul_right bw (le_mul_numGroups _)
  rw [Nat.mul_assoc] at hroom
  rw [pack_length, ceilDiv]
  omega

/-- The payload of a literal block: `Pack` padded to `g * bw` bytes, or as many drawn bytes where a literal is too wide
(42_bitpack.md R150, R158). -/
def litPayload (k : Nat) (ls : List Nat) (bw : Nat) : List Byte :=
  if ls.any (fun v => decide (2 ^ bw ≤ v)) then drawBytes k (numGroups ls.length * bw)
  else padTo (pack ls bw) (numGroups ls.length * bw)

@[simp] theorem litPayload_length (k : Nat) (ls : List Nat) (bw : Nat) :
    (litPayload k ls bw).length = numGroups ls.length * bw := by
  unfold litPayload
  split
  · exact drawBytes_length ..
  · exact padTo_length _ _ (pack_length_le ls bw)

/-- A literal block is its header and its payload (42_bitpack.md R150). -/
theorem bitPack_of_ne_nil {ls : List Nat} (k bw : Nat) (h : ls ≠ []) :
    bitPack k ls bw = varInt (2 * numGroups ls.length + 1) ++ litPayload k ls bw := by
  rw [bitPack, if_neg h, litPayload, apply_ite (varInt (2 * numGroups ls.length + 1) ++ ·)]

/-- Settles O7: `Pack` emits the bytes of its closed form, and the block is header and `litPayload`. -/
theorem bitPackLength : Obligations.BitPackLength := fun k bw ls h =>
  ⟨pack_length ls bw, pack_length_le ls bw, _, bitPack_of_ne_nil k bw h, litPayload_length ..⟩

/-- Settles O10: the payload has `g * 0` bytes. -/
theorem bitPackZeroWidth : Obligations.BitPackZeroWidth := by
  intro k ls h
  have hnil : litPayload k ls 0 = [] := List.eq_nil_of_length_eq_zero (litPayload_length ..)
  rw [bitPack_of_ne_nil k 0 h, hnil, List.append_nil]

/-! ### The closed form of literals in range -/

section
variable {bw : Nat} {ls : List Nat} (hls : ∀ x ∈ ls, x < 2 ^ bw)
include hls

/-- Literals in range do not overlap, so that ORing them together adds them (42_bitpack.md R157). -/
theorem packedOr_eq_packedNat : packedOr bw ls = packedNat bw ls := by
  induction ls with
  | nil => rfl
  | cons v ls ih =>
    obtain ⟨hv, hls⟩ := List.forall_mem_cons.1 hls
    rw [packedOr, packedNat, ih hls, Nat.or_comm, ← Nat.shiftLeft_add_eq_or_of_lt hv, Nat.shiftLeft_eq, Nat.add_comm,
      Nat.mul_comm]

/-- The literals in range take `bw` bits each. -/
theorem packedNat_lt : packedNat bw ls < 2 ^ (ls.length * bw) := by
  induction ls with
  | nil => exact Nat.two_pow_pos _
  | cons v ls ih =>
    obtain ⟨hv, hls⟩ := List.forall_mem_cons.1 hls
    calc v + 2 ^ bw * packedNat bw ls
        < 2 ^ bw * (packedNat bw ls + 1) := by rw [Nat.mul_succ]; omega
      _ ≤ 2 ^ bw * 2 ^ (ls.length * bw) := Nat.mul_le_mul_left _ (ih hls)
      _ = 2 ^ ((v :: ls).length * bw) := by rw [← pow_add, List.length_cons, Nat.succ_mul, Nat.add_comm]

/-- The groups' bytes have room for the literals in range. -/
theorem packedNat_lt_payload : packedNat bw ls < 2 ^ (8 * (numGroups ls.length * bw)) := by
  refine (packedNat_lt hls).trans_le (Nat.pow_le_pow_right (by decide) ?_)
  rw [← Nat.mul_assoc]
  exact Nat.mul_le_mul_right bw (le_mul_numGroups _)

/-- The payload of literals in range is the little-endian bytes of their natural (42_bitpack.md R157). -/
theorem litPayload_eq (k : Nat) : litPayload k ls bw = leBytes (numGroups ls.length * bw) (packedNat bw ls) := by
  have hany : ¬ ls.any (fun v => decide (2 ^ bw ≤ v)) = true := by simpa using hls
  have hfit : packedNat bw ls < 2 ^ (8 * ceilDiv (ls.length * bw) 8) :=
    (packedNat_lt hls).trans_le (Nat.pow_le_pow_right (by decide) (le_mul_ceilDiv _))
  have hle := pack_length_le ls bw
  rw [pack_length] at hle
  rw [litPayload, if_neg hany, pack_eq, packedOr_eq_packedNat hls, padTo_leBytes hfit hle]

/-- Slot `m` of the literals' natural is literal `m`, and 0 past them (30_encoding.md R97, 42_bitpack.md R157). -/
theorem slotAt_packedNat (m : Nat) : slotAt (packedNat bw ls) bw m = ls.getD m 0 := by
  induction ls generalizing m with
  | nil => simp [slotAt, packedNat]
  | cons v ls ih =>
    obtain ⟨hv, hls⟩ := List.forall_mem_cons.1 hls
    cases m with
    | zero => simp [slotAt, packedNat, Nat.mod_eq_of_lt hv]
    | succ m =>
      have hdrop : (v + 2 ^ bw * packedNat bw ls) / 2 ^ bw = packedNat bw ls := by
        rw [Nat.add_mul_div_left _ _ (Nat.two_pow_pos bw), Nat.div_eq_of_lt hv, Nat.zero_add]
      have hslot : slotAt (packedNat bw (v :: ls)) bw (m + 1) = slotAt (packedNat bw ls) bw m := by
        rw [slotAt, packedNat, Nat.succ_mul, Nat.add_comm (m * bw), pow_add, ← Nat.div_div_eq_div_mul, hdrop, slotAt]
      rw [hslot, ih hls, List.getD_cons_succ]

/-- The slots of the literals' natural are the literals, and zeros in the padding slots (42_bitpack.md R157, R162). -/
theorem slotsOf_packedNat {g : Nat} (hg : ls.length ≤ 8 * g) :
    slotsOf (packedNat bw ls) bw g = ls ++ List.replicate (8 * g - ls.length) 0 := by
  refine List.ext_getElem (by simp [slotsOf, hg]) fun m _ _ => ?_
  rcases Nat.lt_or_ge m ls.length with hm | hm
  · simp [slotsOf, slotAt_packedNat hls, hm]
  · simp [slotsOf, slotAt_packedNat hls, hm]

end

/-- The bytes of a natural, place by place (00_scope.md R13). -/
theorem leBytes_eq_map (n v : Nat) :
    leBytes n v = (List.range n).map fun t => BitVec.ofNat 8 (v / 2 ^ (8 * t) % 256) := by
  refine List.ext_getElem? fun t => ?_
  rcases Nat.lt_or_ge t n with ht | ht
  · rw [leBytes_getElem? v ht]
    simp [ht]
  · simp [ht]

/-- Settles O8: `litPayload_eq`, its bytes written out. -/
theorem bitPackClosedForm : Obligations.BitPackClosedForm := by
  intro k bw ls h hls
  rw [bitPack_of_ne_nil k bw h, litPayload_eq hls, leBytes_eq_map]

/-! ### The round trip of a literal block -/

/-- A reader takes a literal block as its header announces it, the payload as slots (30_encoding.md R97). -/
theorem readBlock_lit {bw g : Nat} {p : List Byte} (rest : List Byte) (hp : p.length = g * bw) :
    readBlock bw (varInt (2 * g + 1) ++ p ++ rest) = some (.lit (slotsOf (leValue p) bw g), rest) := by
  have hdec : decode .stream (varInt (2 * g + 1) ++ (p ++ rest)) = .ok (.litBlock g, p ++ rest) :=
    decodeEncode (.litBlock g) (p ++ rest)
  simp [readBlock, hdec, ← hp]

/-- Settles O9: the payload spells the literals' natural, whose slots are the literals and then zeros. -/
theorem bitPackRoundTrip : Obligations.BitPackRoundTrip := by
  intro k bw ls rest h hls
  rw [bitPack_of_ne_nil k bw h, readBlock_lit rest (litPayload_length ..), litPayload_eq hls, leValue_leBytes,
    Nat.mod_eq_of_lt (packedNat_lt_payload hls), slotsOf_packedNat hls (le_mul_numGroups _)]

/-! ### The other reading of "bits remain" -/

/-- The two readings of "bits remain" differ by a byte 0 at most (42_bitpack.md R160). -/
theorem BitAcc.Legal.flushBits_eq_flushNonzero {a : BitAcc} (ha : a.Legal) :
    ∃ z, flushBits a = flushNonzero a ++ List.replicate z 0 := by
  unfold flushBits flushNonzero
  rcases Nat.eq_zero_or_pos a.nbits with hn | hn
  · have hacc : a.acc = 0 := by simpa [hn] using ha.acc
    exact ⟨0, by simp [hn, hacc]⟩
  · by_cases hacc : a.acc = 0
    · exact ⟨1, by simp [hn, hacc]⟩
    · exact ⟨0, by simp [hn, hacc]⟩

/-- The packing loops with the two readings of "bits remain" differ by a byte 0 at most (42_bitpack.md R160). -/
theorem packLoop_eq_packNonzero {bw : Nat} {ls : List Nat} (hls : ∀ x ∈ ls, x < 2 ^ bw) {a : BitAcc} (ha : a.Legal) :
    ∃ z, packLoop bw ls a = packNonzero bw ls a ++ List.replicate z 0 := by
  induction ls generalizing a with
  | nil => exact ha.flushBits_eq_flushNonzero
  | cons v ls ih =>
    obtain ⟨hv, hls⟩ := List.forall_mem_cons.1 hls
    obtain ⟨z, hz⟩ := ih hls (ha.packValue hv)
    exact ⟨z, by rw [packLoop, packNonzero, hz, List.append_assoc]⟩

/-- Bytes 0 at the end are padding already done (42_bitpack.md R155). -/
theorem padTo_append_zeros {p : List Byte} {z req : Nat} (h : (p ++ List.replicate z 0).length ≤ req) :
    padTo (p ++ List.replicate z 0) req = padTo p req := by
  rw [List.length_append, List.length_replicate] at h
  rw [padTo, padTo, List.length_append, List.length_replicate, List.append_assoc, List.replicate_append_replicate,
    show z + (req - (p.length + z)) = req - p.length by omega]

/-- Settles O11: the bytes by which the readings differ are padding. -/
theorem flushReadings : Obligations.FlushReadings := by
  intro bw ls hls
  obtain ⟨z, hz⟩ := packLoop_eq_packNonzero hls BitAcc.legal_zero
  have hle := pack_length_le ls bw
  rw [pack, hz] at hle ⊢
  exact (padTo_append_zeros hle).symm

/-! ### The BITPACK command -/

/-- A START of an IDLE block ends at once with the code validation gives, if that is not OK (60_exceptions.md R213). -/
theorem start_error {s : State} {op : BitVec 3} {e : Err} (hidle : s.idle) (hv : validate op s = e) (he : e ≠ .ok) :
    start op s = { s with op := op, done := true, err := e, outLen := 0 } := by
  subst hv
  exact start_invalid (s.busy_of_phase_idle hidle) he

/-- A length above N_MAX is turned away once the width is legal (60_exceptions.md R212). -/
theorem validate_badLen {op : BitVec 3} {s : State} (hop : op = 2 ∨ op = 3) (hbw : s.bitWidth.toNat ≤ 32)
    (hlen : s.capIn.toNat < s.inLen.toNat) : validate op s = .badLen := by
  have hlt : ¬ 4 ≤ op.toNat := by rcases hop with rfl | rfl <;> decide
  rw [validate, validateOperands, if_neg hlt, if_neg fun h => Nat.not_lt.2 hbw h.2, if_pos ⟨hop, hlen⟩]

/-- BITPACK of no literals is turned away last (60_exceptions.md R212). -/
theorem validate_bitpack_empty {s : State} (hbw : s.bitWidth.toNat ≤ 32) (hlen : s.inLen.toNat = 0) :
    validate 2 s = .emptyLiterals := by
  simp [validate, validateOperands, Nat.not_lt.2 hbw, hlen]

/-- BITPACK of a legal width and 1 to N_MAX literals passes validation (60_exceptions.md R212). -/
theorem validate_bitpack {s : State} (hbw : s.bitWidth.toNat ≤ 32) (hpos : 0 < s.inLen.toNat)
    (hlen : s.inLen.toNat ≤ s.capIn.toNat) : validate 2 s = .ok := by
  simp [validate, validateOperands, Nat.not_lt.2 hbw, Nat.not_lt.2 hlen, hpos.ne']

/-- BITPACK that passes validation launches the engine from every IDLE state (30_encoding.md R93). -/
theorem exec_bitpack_idle {s : State} (hidle : s.idle) (hv : validate 2 s = .ok) :
    exec .bitpack s = .next (s.launch 2 (snapshot .bitpack s) (4 * s.inLen.toNat)) :=
  congrArg Host.Outcome.next (start_valid (s.busy_of_phase_idle hidle) hv)

/-- The completion of a launch, OUT_MEM having room for the result or not (10_state.md R42). -/
theorem complete_launch_result (s : State) (op : BitVec 3) (S : Snapshot) (n : Nat) :
    ∃ u, complete (s.launch op S n) = .next u ∧ s.Completed u (result S (s.draws + n)) ∧
      u.faults = if S.unwritten then s.faults.add .unwrittenInput else s.faults := by
  obtain ⟨u, hu, hcomp, -, -, -, -, -, -, -, -, -, -, hfaults⟩ := completionEffect (s.launch op S n) S rfl
  exact ⟨u, hu, hcomp.of_launch, hfaults⟩

/-- The snapshot of a command that reads its input knows of an unwritten word (10_state.md R42). -/
theorem snapshot_unwritten {s : State} {cmd : Command} {k : Nat} (hn : inputCount cmd s = s.inLen.toNat)
    (hk : k < s.inLen.toNat) (h : inWord s.mem k = none) : (snapshot cmd s).unwritten = true :=
  List.any_eq_true.2 ⟨k, List.mem_range.2 (hn ▸ hk), by rw [h]; rfl⟩

/-- BITPACK's result of written inputs is `BitPack` of them (42_bitpack.md R161). -/
theorem result_bitpack {s : State} {ls : List Word} (k : Nat) (h : s.inputIs ls) :
    result (snapshot .bitpack s) k = bitPack k (ls.map fun x => x.toNat) s.bitWidth.toNat := by
  obtain ⟨hin, -⟩ := snapshot_inputIs (cmd := .bitpack) h rfl
  rw [result, snapshot_cmd, snapshot_bw, Snapshot.values, hin]

/-- Settles O27: validation turns BITPACK away or lets it launch, and its completion writes `BitPack` of its inputs. -/
theorem bitpackResult : Obligations.BitpackResult := by
  refine ⟨by decide, fun s hidle => ⟨fun ls hbw hin hne hcap => ?written, fun hbw => ?badBw, fun hbw hlen => ?badLen,
    fun hbw hlen => ?empty, fun k hbw hcap hk hnone => ?unwritten⟩⟩
  case written =>
    have ⟨hlen, _⟩ := hin
    obtain ⟨-, hwritten⟩ := snapshot_inputIs (cmd := .bitpack) hin rfl
    have hpos : 0 < s.inLen.toNat := hlen ▸ List.length_pos_of_ne_nil hne
    obtain ⟨u, hu, hcomp, hfaults⟩ := complete_launch_result s 2 (snapshot .bitpack s) (4 * s.inLen.toNat)
    rw [result_bitpack _ hin] at hcomp
    rw [hwritten] at hfaults
    refine ⟨_, u, exec_bitpack_idle hidle (validate_bitpack hbw hpos (hlen ▸ hcap)), rfl, hu, hcomp, hfaults, ?_⟩
    rw [bitPack_of_ne_nil _ _ (by simpa using hne), List.length_append, litPayload_length, List.length_map]
  case badBw => exact congrArg _ (start_error hidle (validate_badBw (.inr (.inl rfl)) hbw) nofun)
  case badLen => exact congrArg _ (start_error hidle (validate_badLen (.inl rfl) hbw hlen) nofun)
  case empty => exact congrArg _ (start_error hidle (validate_bitpack_empty hbw hlen) nofun)
  case unwritten =>
    obtain ⟨u, hu, hcomp, hfaults⟩ := complete_launch_result s 2 (snapshot .bitpack s) (4 * s.inLen.toNat)
    rw [snapshot_unwritten rfl hk hnone] at hfaults
    exact ⟨_, u, exec_bitpack_idle hidle (validate_bitpack hbw (Nat.zero_lt_of_lt hk) hcap), hu, hcomp.idle, hcomp.done,
      hfaults⟩

end Sys2Proof.Machine

/-! PROOFS. HYBRID's runs and its partition: run lengths, the items of the partition, and `Hybrid` as one block per item
(43_hybrid.md R180 to R187, R192). -/
namespace Sys2Proof.Machine

/-! ### Run lengths -/

/-- Inside a run that a different value or the end follows, the run length is what is left of the run (43_hybrid.md R180). -/
theorem runlen_replicate_append {c v i : Nat} {ys : List Nat} (hi : i < c) (hys : ys.head? ≠ some v) :
    runlen (List.replicate c v ++ ys) i = c - i := by
  obtain ⟨m, rfl⟩ : ∃ m, c = i + (m + 1) := ⟨c - i - 1, by omega⟩
  have hstop : ys.takeWhile (fun x => x == v) = [] := by
    cases ys with
    | nil => rfl
    | cons y ys => simpa using hys
  have hdrop : (List.replicate (i + (m + 1)) v ++ ys).drop i = v :: (List.replicate m v ++ ys) := by
    rw [List.drop_append_of_le_length (by simp), List.drop_replicate, Nat.add_sub_cancel_left, List.replicate_succ,
      List.cons_append]
  simp [runlen, hdrop, List.takeWhile_append_of_pos, hstop]
  omega

/-- Past a list's end the run length is that of what follows (43_hybrid.md R180). -/
theorem runlen_append_of_le {xs : List Nat} {i : Nat} (ys : List Nat) (hi : xs.length ≤ i) :
    runlen (xs ++ ys) i = runlen ys (i - xs.length) := by
  have hdrop : (xs ++ ys).drop i = ys.drop (i - xs.length) := by
    rw [List.drop_append, List.drop_eq_nil_of_le hi, List.nil_append]
  rw [runlen, hdrop, runlen]

/-- A sequence that is not empty begins with a run, which a different value or the end follows. -/
theorem exists_run_append (v : Nat) (vs : List Nat) :
    ∃ c ys, v :: vs = List.replicate (c + 1) v ++ ys ∧ ys.head? ≠ some v := by
  induction vs with
  | nil => exact ⟨0, [], rfl, nofun⟩
  | cons x vs ih =>
    by_cases hx : x = v
    · obtain ⟨c, ys, h, hys⟩ := ih
      exact ⟨c + 1, ys, by rw [hx, h]; rfl, hys⟩
    · exact ⟨0, x :: vs, rfl, by simpa using hx⟩

/-- At a position the rest of the sequence is the run there and what follows it, which begins with another value. -/
theorem drop_eq_run_append {vs : List Nat} {i : Nat} (hi : i < vs.length) :
    vs.drop i = List.replicate (runlen vs i) (valueAt vs i) ++ vs.drop (i + runlen vs i) ∧
      (vs.drop (i + runlen vs i)).head? ≠ some (valueAt vs i) := by
  obtain ⟨c, ys, hrun, hys⟩ := exists_run_append vs[i] (vs.drop (i + 1))
  rw [List.cons_getElem_drop_succ] at hrun
  have hlen : runlen vs i = c + 1 := by
    have hshift : runlen vs i = runlen (vs.drop i) 0 := by simp [runlen]
    rw [hshift, hrun, runlen_replicate_append (Nat.succ_pos c) hys, Nat.sub_zero]
  have hrest : vs.drop (i + (c + 1)) = ys := by
    rw [← List.drop_drop, hrun, List.drop_left' (List.length_replicate ..)]
  have hval : valueAt vs i = vs[i] := by simp [valueAt, hi]
  rw [hlen, hrest, hval]
  exact ⟨hrun, hys⟩

/-- The values of a run are all the run's value (43_hybrid.md R180). -/
theorem getElem?_of_lt_runlen {vs : List Nat} {i k : Nat} (hi : i < vs.length) (hik : i ≤ k)
    (hk : k < i + runlen vs i) : vs[k]? = some (valueAt vs i) := by
  have hdrop : vs[k]? = (vs.drop i)[k - i]? := by rw [List.getElem?_drop, Nat.add_sub_cancel' hik]
  have hlt : k - i < runlen vs i := by omega
  rw [hdrop, (drop_eq_run_append hi).1, List.getElem?_append_left (by simpa using hlt), List.getElem?_replicate_of_lt hlt]

/-- After a run comes another value, or the end (43_hybrid.md R180). -/
theorem getElem?_add_runlen_ne {vs : List Nat} {i : Nat} (hi : i < vs.length) :
    vs[i + runlen vs i]? ≠ some (valueAt vs i) := by
  rw [← List.head?_drop]
  exact (drop_eq_run_append hi).2

/-- Settles O12: the run's values are equal, and a longer stretch would take in the value after the run. -/
theorem runLengthLargest : Obligations.RunLengthLargest := by
  intro vs i hi
  have hpos := runlen_pos hi
  have hhead : vs[i]? = some (valueAt vs i) := getElem?_of_lt_runlen hi (Nat.le_refl i) (by omega)
  refine ⟨hpos, add_runlen_le hi.le, fun k hik hk => (getElem?_of_lt_runlen hi hik hk).trans hhead.symm,
    fun r _ _ hall => ?_⟩
  by_contra hr
  exact getElem?_add_runlen_ne hi ((hall _ (by omega) (by omega)).trans hhead)

/-! ### The partition, run by run -/

/-- Induction over the maximal runs of a sequence, from its last run to its first. -/
theorem run_induction {P : List Nat → Prop} (nil : P [])
    (run : ∀ c v ys, 0 < c → ys.head? ≠ some v → P ys → P (List.replicate c v ++ ys)) (vs : List Nat) : P vs := by
  induction hn : vs.length using Nat.strongRecOn generalizing vs with
  | ind n ih =>
    cases vs with
    | nil => exact nil
    | cons v vs =>
      obtain ⟨c, ys, hrun, hys⟩ := exists_run_append v vs
      have hlen : ys.length < n := by rw [← hn, hrun]; simp
      rw [hrun]
      exact run (c + 1) v ys (Nat.succ_pos c) hys (ih _ hlen ys rfl)

/-- The first maximal run has the first value. -/
theorem maximalRuns_head? (vs : List Nat) : (maximalRuns vs).head?.map Prod.fst = vs.head? := by
  cases vs with
  | nil => rfl
  | cons v vs =>
    rw [maximalRuns]
    split
    · rfl
    · split <;> rfl

/-- A run that a different value or the end follows is the first maximal run. -/
theorem maximalRuns_run_append {c v : Nat} {ys : List Nat} (hys : ys.head? ≠ some v) :
    maximalRuns (List.replicate (c + 1) v ++ ys) = (v, c + 1) :: maximalRuns ys := by
  induction c with
  | zero =>
    rw [← maximalRuns_head?] at hys
    rw [List.replicate_one, List.singleton_append, maximalRuns]
    split
    · next hnil => rw [hnil]
    · next x c rest hcons =>
      have hx : x ≠ v := by simpa [hcons] using hys
      rw [if_neg hx, hcons]
  | succ c ih => rw [List.replicate_succ, List.cons_append, maximalRuns, ih]; simp

/-- Whether an item is a literal span. -/
def Item.isSpan : Item → Bool
  | .longRun _ _ => false
  | .span _ => true

/-- Everything the first run of a sequence can be to the partition: a long run; a short run that joins the span after
it; or a short run with no span after it, which is a span of its own (43_hybrid.md R187). -/
theorem partition_run_cases {c v : Nat} {ys : List Nat} (hc : 0 < c) (hys : ys.head? ≠ some v) :
    (8 ≤ c ∧ partition (List.replicate c v ++ ys) = .longRun v c :: partition ys) ∨
    (c < 8 ∧ ∃ ls more, partition ys = .span ls :: more ∧
      partition (List.replicate c v ++ ys) = .span (List.replicate c v ++ ls) :: more) ∨
    (c < 8 ∧ (∀ it ∈ (partition ys).head?, it.isSpan = false) ∧
      partition (List.replicate c v ++ ys) = .span (List.replicate c v) :: partition ys) := by
  obtain ⟨c, rfl⟩ := Nat.exists_eq_succ_of_ne_zero hc.ne'
  simp only [partition, maximalRuns_run_append hys, groupRuns]
  split
  · next h => exact .inl ⟨h, rfl⟩
  · next h =>
    split
    · next ls more hspan => exact .inr (.inl ⟨Nat.not_le.1 h, ls, more, hspan, rfl⟩)
    · next hno =>
      refine .inr (.inr ⟨Nat.not_le.1 h, fun it hit => ?_, rfl⟩)
      cases it with
      | longRun => rfl
      | span ls =>
        obtain ⟨more, hmore⟩ := List.head?_eq_some_iff.1 hit
        exact absurd hmore (hno ls more)

@[simp] theorem partition_nil : partition [] = [] := rfl

/-- The items of the partition cover the input in order (43_hybrid.md R185). -/
theorem partition_flatMap_values (vs : List Nat) : (partition vs).flatMap Item.values = vs := by
  induction vs using run_induction with
  | nil => rfl
  | run c v ys hc hys ih =>
    rcases partition_run_cases hc hys with ⟨-, hp⟩ | ⟨-, ls, more, hspan, hp⟩ | ⟨-, -, hp⟩
    · rw [hp, List.flatMap_cons, ih]; rfl
    · rw [hspan, List.flatMap_cons] at ih
      rw [hp, List.flatMap_cons, ← ih]
      exact List.append_assoc ..
    · rw [hp, List.flatMap_cons, ih]; rfl

/-- A long run has at least 8 values; a literal span has a value, and no run of 8 (43_hybrid.md R187). -/
def Item.Legal : Item → Prop
  | .longRun _ c => 8 ≤ c
  | .span ls => ls ≠ [] ∧ ∀ i, i < ls.length → runlen ls i < 8

theorem Item.Legal.count_ne_zero {v c : Nat} (h : (Item.longRun v c).Legal) : c ≠ 0 :=
  Nat.ne_zero_of_lt (show 7 < c from h)

/-- Every item covers a value (43_hybrid.md R187). -/
theorem Item.Legal.values_ne_nil {it : Item} (h : it.Legal) : it.values ≠ [] := by
  cases it with
  | longRun v c => simpa [Item.values] using h.count_ne_zero
  | span ls => exact h.1

/-- A short run before a span that begins with another value, or before nothing, makes no run of 8. -/
theorem Item.legal_span_run_append {c v : Nat} {ls : List Nat} (hc : 0 < c) (hc8 : c < 8) (hne : ls.head? ≠ some v)
    (hls : ∀ i, i < ls.length → runlen ls i < 8) : (Item.span (List.replicate c v ++ ls)).Legal := by
  refine ⟨by simp [hc.ne'], fun i hi => ?_⟩
  rcases Nat.lt_or_ge i c with hic | hci
  · rw [runlen_replicate_append hic hne]
    omega
  · rw [runlen_append_of_le ls (by simpa using hci), List.length_replicate]
    exact hls _ (by simp at hi; omega)

/-- The first item begins as the input does, where the items cover something. -/
theorem partition_head?_values {ys : List Nat} {it : Item} {more : List Item} (h : partition ys = it :: more)
    (hne : it.values ≠ []) : it.values.head? = ys.head? := by
  rw [← partition_flatMap_values ys, h, List.flatMap_cons, List.head?_append_of_ne_nil _ hne]

/-- Every item of the partition is legal (43_hybrid.md R187). -/
theorem partition_legal (vs : List Nat) : ∀ it ∈ partition vs, it.Legal := by
  induction vs using run_induction with
  | nil => exact nofun
  | run c v ys hc hys ih =>
    rcases partition_run_cases hc hys with ⟨h8, hp⟩ | ⟨h8, ls, more, hspan, hp⟩ | ⟨h8, -, hp⟩ <;> rw [hp]
    · exact List.forall_mem_cons.2 ⟨h8, ih⟩
    · rw [hspan] at ih
      obtain ⟨⟨hls, hshort⟩, hmore⟩ := List.forall_mem_cons.1 ih
      have hhead : ls.head? = ys.head? := partition_head?_values hspan hls
      exact List.forall_mem_cons.2 ⟨Item.legal_span_run_append hc h8 (hhead ▸ hys) hshort, hmore⟩
    · have hone : (Item.span (List.replicate c v ++ [])).Legal := Item.legal_span_run_append hc h8 nofun nofun
      rw [List.append_nil] at hone
      exact List.forall_mem_cons.2 ⟨hone, ih⟩

/-- How two adjacent items of the partition stand to each other: they are not both spans, and the value changes from the
one to the other (43_hybrid.md R187). -/
def Item.Adjacent (a b : Item) : Prop :=
  ¬ (a.isSpan = true ∧ b.isSpan = true) ∧ a.values.getLast? ≠ b.values.head?

/-- The items of the partition alternate as the rule says (43_hybrid.md R187). -/
theorem partition_isChain (vs : List Nat) : (partition vs).IsChain Item.Adjacent := by
  induction vs using run_induction with
  | nil => exact .nil
  | run c v ys hc hys ih =>
    have hlast : (List.replicate c v).getLast? = some v := by simp [List.getLast?_replicate, hc.ne']
    have hchange : ∀ it ∈ (partition ys).head?, some v ≠ it.values.head? := by
      intro it hit
      obtain ⟨more, hmore⟩ := List.head?_eq_some_iff.1 hit
      have hlegal := partition_legal ys it (List.mem_of_mem_head? hit)
      rw [partition_head?_values hmore hlegal.values_ne_nil]
      exact hys.symm
    rcases partition_run_cases hc hys with ⟨-, hp⟩ | ⟨-, ls, more, hspan, hp⟩ | ⟨-, hno, hp⟩ <;> rw [hp]
    · refine List.isChain_cons.2 ⟨fun it hit => ⟨by simp [Item.isSpan], ?_⟩, ih⟩
      rw [Item.values, hlast]
      exact hchange it hit
    · obtain ⟨hls, -⟩ : (Item.span ls).Legal := partition_legal ys _ (by simp [hspan])
      rw [hspan, List.isChain_cons] at ih
      obtain ⟨hadj, hmore⟩ := ih
      refine List.isChain_cons.2 ⟨fun it hit => ⟨(hadj it hit).1, ?_⟩, hmore⟩
      rw [Item.values, List.getLast?_append_of_ne_nil _ hls]
      exact (hadj it hit).2
    · refine List.isChain_cons.2 ⟨fun it hit => ⟨by simp [hno it hit], ?_⟩, ih⟩
      rw [Item.values, hlast]
      exact hchange it hit

/-- Settles O14: the items cover the input, are legal, and adjacent ones stand as `Item.Adjacent` says. -/
theorem partitionShape : Obligations.PartitionShape := by
  intro vs
  have hadj {pre post : List Item} {a b : Item} (h : partition vs = pre ++ a :: b :: post) : a.Adjacent b :=
    List.isChain_iff_forall_rel_of_append_cons_cons.1 (partition_isChain vs) h
  have hpos {v c : Nat} (h : Item.longRun v c ∈ partition vs) : c ≠ 0 := (partition_legal vs _ h).count_ne_zero
  refine ⟨partition_flatMap_values vs, fun v c h => partition_legal vs _ h, fun ls h => partition_legal vs _ h,
    fun pre post a b h => ?spans, fun pre post v c d h => ?runs, fun pre post ls v c h => ?spanRun,
    fun pre post ls v c h => ?runSpan⟩
  case spans => exact (hadj h).1 ⟨rfl, rfl⟩
  case runs =>
    have hc : c ≠ 0 := hpos (v := v) (by simp [h])
    have hd : d ≠ 0 := hpos (v := v) (by simp [h])
    simpa [Item.values, List.getLast?_replicate, List.head?_replicate, hc, hd] using (hadj h).2
  case spanRun =>
    have hc : c ≠ 0 := hpos (v := v) (by simp [h])
    simpa [Item.values, List.head?_replicate, hc] using (hadj h).2
  case runSpan =>
    have hc : c ≠ 0 := hpos (v := v) (by simp [h])
    simpa [Item.values, List.getLast?_replicate, hc, eq_comm] using (hadj h).2

/-! ### The partition from a cursor on -/

/-- At a long run the partition goes on with it (43_hybrid.md R187). -/
theorem partition_drop_run {vs : List Nat} {i : Nat} (hi : i < vs.length) (hr : 8 ≤ runlen vs i) :
    partition (vs.drop i) = .longRun (valueAt vs i) (runlen vs i) :: partition (vs.drop (i + runlen vs i)) := by
  obtain ⟨hrun, hnext⟩ := drop_eq_run_append hi
  rw [hrun]
  rcases partition_run_cases (runlen_pos hi) hnext with ⟨-, hp⟩ | ⟨h8, -⟩ | ⟨h8, -⟩
  · exact hp
  · omega
  · omega

/-- A stretch of a sequence from a run on is the run and the stretch after it. -/
theorem slice_eq_run_append {vs : List Nat} {i e : Nat} (hi : i < vs.length) (he : i + runlen vs i ≤ e) :
    slice vs i e = List.replicate (runlen vs i) (valueAt vs i) ++ slice vs (i + runlen vs i) e := by
  rw [slice, (drop_eq_run_append hi).1, List.take_append, List.take_of_length_le (by simp; omega), List.length_replicate,
    slice, Nat.sub_add_eq]

@[simp] theorem slice_self (vs : List Nat) (i : Nat) : slice vs i i = [] := by simp [slice]

/-- At a short run the partition goes on with the span to its end (43_hybrid.md R187, R181, step 3). -/
theorem partition_drop_span {vs : List Nat} {i : Nat} (hi : i < vs.length) (hr : runlen vs i < 8) :
    partition (vs.drop i) =
      .span (slice vs i (spanEnd vs vs.length i)) :: partition (vs.drop (spanEnd vs vs.length i)) := by
  induction hn : vs.length - i using Nat.strongRecOn generalizing i with
  | ind n ih =>
    have hpos := runlen_pos hi
    obtain ⟨hrun, hnext⟩ := drop_eq_run_append hi
    have hcases := partition_run_cases hpos hnext
    rw [← hrun] at hcases
    rw [spanEnd_extend hi hr, slice_eq_run_append hi (le_spanEnd ..)]
    by_cases hj : i + runlen vs i < vs.length ∧ runlen vs (i + runlen vs i) < 8
    · have hspan := ih _ (by omega) hj.1 hj.2 rfl
      rcases hcases with ⟨h8, -⟩ | ⟨-, ls, more, hls, hp⟩ | ⟨-, hno, -⟩
      · omega
      · obtain ⟨⟨rfl⟩, rfl⟩ := List.cons.inj (hls.symm.trans hspan)
        exact hp
      · simp [hspan, Item.isSpan] at hno
    · rw [spanEnd_stop (by omega), slice_self, List.append_nil]
      rcases hcases with ⟨h8, -⟩ | ⟨-, ls, more, hls, -⟩ | ⟨-, -, hp⟩
      · omega
      · rcases Nat.lt_or_ge (i + runlen vs i) vs.length with hlt | hge
        · rw [partition_drop_run hlt (by omega)] at hls
          cases hls
        · rw [List.drop_eq_nil_of_le hge] at hls
          cases hls
      · exact hp

/-! ### One block per item -/

/-- The outer loop of `Hybrid` at a cursor appends the blocks of the partition from there on (43_hybrid.md R187). -/
theorem hybridLoop_eq_encodeItems (k bw : Nat) (vs : List Nat) (i : Nat) (out : List Byte) :
    hybridLoop k vs bw vs.length i out = out ++ encodeItems bw (k + out.length) (partition (vs.drop i)) := by
  induction hn : vs.length - i using Nat.strongRecOn generalizing i out with
  | ind n ih =>
    rcases Nat.lt_or_ge i vs.length with hi | hi
    · rcases Nat.lt_or_ge (runlen vs i) 8 with hr | hr
      · have := lt_spanEnd hi hr
        rw [hybridLoop_span k bw out hi hr, ih _ (by omega) _ _ rfl, partition_drop_span hi hr, encodeItems, Item.block,
          List.append_assoc, List.length_append, Nat.add_assoc]
      · have := runlen_pos hi
        rw [hybridLoop_run k bw out hi hr, ih _ (by omega) _ _ rfl, partition_drop_run hi hr, encodeItems, Item.block,
          List.append_assoc, List.length_append, Nat.add_assoc]
    · rw [hybridLoop_end k bw _ out hi, List.drop_eq_nil_of_le hi, partition_nil, encodeItems, List.append_nil]

/-- Settles O13: the loop from the cursor 0 on. -/
theorem hybridIsPartition : Obligations.HybridIsPartition := fun k bw vs =>
  hybridLoop_eq_encodeItems k bw vs 0 []

/-- A legal item's block has the length the rule gives, its values too wide or not (43_hybrid.md R192). -/
theorem Item.Legal.block_length {it : Item} (h : it.Legal) (k bw : Nat) :
    (it.block k bw).length = it.blockLength bw := by
  cases it with
  | longRun v c =>
    rw [Item.block, runEnc_of_ne_zero k v bw h.count_ne_zero, List.length_append, runPayload_length, Item.blockLength]
  | span ls =>
    rw [Item.block, bitPack_of_ne_nil k bw h.1, List.length_append, litPayload_length, Item.blockLength]

/-- The blocks of legal items have the lengths the rule gives (43_hybrid.md R192). -/
theorem encodeItems_length {items : List Item} (h : ∀ it ∈ items, it.Legal) (k bw : Nat) :
    (encodeItems bw k items).length = (items.map (Item.blockLength bw)).sum := by
  induction items generalizing k with
  | nil => rfl
  | cons it items ih =>
    obtain ⟨hit, hitems⟩ := List.forall_mem_cons.1 h
    rw [encodeItems, List.length_append, ih hitems, hit.block_length, List.map_cons, List.sum_cons]

/-- Settles O15: the output is one block per item, and every item of the partition is legal. -/
theorem hybridLength : Obligations.HybridLength := by
  intro k bw vs
  rw [hybridIsPartition, encodeItems_length (partition_legal vs)]

end Sys2Proof.Machine

/-! PROOFS. What a reader obtains from `Hybrid`'s output: the decoded form, and the round trip (43_hybrid.md R188, R189). -/
namespace Sys2Proof.Machine

/-! ### Reading block by block -/

/-- The reader takes the stream's first block and goes on with the rest (43_hybrid.md R188). -/
theorem readBlocks_block {bw fuel : Nat} {bs rest : List Byte} {blk : Block} {ds : List Nat} (hne : bs ≠ [])
    (hblk : readBlock bw bs = some (blk, rest)) (hrest : readBlocks bw fuel rest = some ds) :
    readBlocks bw (fuel + 1) bs = some (blk.values ++ ds) := by
  cases bs with
  | nil => exact absurd rfl hne
  | cons b bs => simp [readBlocks, hblk, hrest]

/-- A legal item of values in range is read back as its decoded form, whatever follows its block (43_hybrid.md R188). -/
theorem Item.Legal.readBlock_block {it : Item} (h : it.Legal) {bw : Nat} (hv : ∀ x ∈ it.values, x < 2 ^ bw) (k : Nat)
    (rest : List Byte) :
    ∃ blk, readBlock bw (it.block k bw ++ rest) = some (blk, rest) ∧ blk.values = it.decoded := by
  cases it with
  | longRun v c =>
    have hc : c ≠ 0 := h.count_ne_zero
    have hlt : v < 2 ^ bw := hv v (List.mem_replicate.2 ⟨hc, rfl⟩)
    exact ⟨_, (runRoundTrip k v c bw rest (Nat.pos_of_ne_zero hc) hlt).1, rfl⟩
  | span ls => exact ⟨_, bitPackRoundTrip k bw ls rest h.1 hv, rfl⟩

/-- A legal item's block has at least the byte of its header. -/
theorem Item.Legal.block_length_pos {it : Item} (h : it.Legal) (k bw : Nat) : 0 < (it.block k bw).length := by
  rw [h.block_length]
  cases it with
  | longRun v c => exact Nat.add_pos_left (varInt_length_pos _) _
  | span ls => exact Nat.add_pos_left (varInt_length_pos _) _

/-- The blocks of legal items of values in range are read back as the items' decoded forms (43_hybrid.md R188). -/
theorem readBlocks_encodeItems {bw : Nat} {items : List Item} (h : ∀ it ∈ items, it.Legal)
    (hv : ∀ it ∈ items, ∀ x ∈ it.values, x < 2 ^ bw) (k fuel : Nat) (hfuel : (encodeItems bw k items).length ≤ fuel) :
    readBlocks bw fuel (encodeItems bw k items) = some (items.flatMap Item.decoded) := by
  induction items generalizing k fuel with
  | nil => rw [encodeItems, readBlocks, List.flatMap_nil]
  | cons it items ih =>
    obtain ⟨hit, hitems⟩ := List.forall_mem_cons.1 h
    obtain ⟨hvit, hvitems⟩ := List.forall_mem_cons.1 hv
    have hpos := hit.block_length_pos k bw
    rw [encodeItems, List.length_append] at hfuel
    rw [encodeItems, List.flatMap_cons]
    obtain ⟨blk, hblk, hvalues⟩ := hit.readBlock_block hvit k (encodeItems bw (k + (it.block k bw).length) items)
    obtain ⟨fuel, rfl⟩ : ∃ f, fuel = f + 1 := ⟨fuel - 1, by omega⟩
    rw [← hvalues]
    exact readBlocks_block (List.append_ne_nil_of_left_ne_nil (List.ne_nil_of_length_pos hpos) _) hblk
      (ih hitems hvitems _ fuel (by omega))

/-- The values of the partition's items are the input's. -/
theorem mem_of_mem_values_partition {vs : List Nat} {it : Item} {x : Nat} (hit : it ∈ partition vs)
    (hx : x ∈ it.values) : x ∈ vs := by
  rw [← partition_flatMap_values vs]
  exact List.mem_flatMap.2 ⟨it, hit, hx⟩

/-- Settles O16: the stream is one block per item of the partition, each read back as its decoded form. -/
theorem hybridDecodedForm : Obligations.HybridDecodedForm := by
  intro k bw vs hvs
  rw [hybridIsPartition, readStream, readBlocks_encodeItems (partition_legal vs)
    (fun it hit x hx => hvs x (mem_of_mem_values_partition hit hx)) k _ (Nat.le_refl _), decodedForm]

/-! ### The round trip -/

/-- An item's decoded form is its values and the zeros of its padding slots (43_hybrid.md R188). -/
theorem Item.exists_decoded_eq (it : Item) : ∃ z, it.decoded = it.values ++ List.replicate z 0 := by
  cases it with
  | longRun v c => exact ⟨0, by simp [Item.decoded, Item.values]⟩
  | span ls => exact ⟨_, rfl⟩

/-- An item that needs no padding decodes to its values (43_hybrid.md R189). -/
theorem Item.decoded_of_unpadded {it : Item} (h : it.unpadded = true) : it.decoded = it.values := by
  cases it with
  | longRun v c => rfl
  | span ls =>
    have hdvd : ls.length % 8 = 0 := of_decide_eq_true h
    have hfull : 8 * numGroups ls.length - ls.length = 0 := by unfold numGroups ceilDiv Config.group; omega
    show ls ++ List.replicate (8 * numGroups ls.length - ls.length) 0 = ls
    rw [hfull, List.replicate_zero, List.append_nil]

/-- Items of which none but the last needs padding decode to their values, with zeros after them all at most. -/
theorem exists_flatMap_decoded_eq {items : List Item} (h : items.dropLast.all Item.unpadded = true) :
    ∃ z, items.flatMap Item.decoded = items.flatMap Item.values ++ List.replicate z 0 := by
  rcases List.eq_nil_or_concat items with rfl | ⟨init, last, rfl⟩
  · exact ⟨0, rfl⟩
  · rw [List.concat_eq_append, List.dropLast_concat, List.all_eq_true] at h
    have hinit : init.flatMap Item.decoded = init.flatMap Item.values :=
      List.flatMap_congr fun it hit => Item.decoded_of_unpadded (h it hit)
    obtain ⟨z, hz⟩ := last.exists_decoded_eq
    exact ⟨z, by simp [List.flatMap_append, hinit, hz]⟩

/-- Settles O17: with padding in the last block only, the decoded form is the input and then zeros. -/
theorem hybridRoundTrip : Obligations.HybridRoundTrip := by
  intro k bw vs hvs hpad
  obtain ⟨z, hz⟩ := exists_flatMap_decoded_eq hpad
  rw [partition_flatMap_values] at hz
  refine ⟨_, hybridDecodedForm k bw vs hvs, ?_⟩
  rw [decodedForm, hz, List.take_left]

end Sys2Proof.Machine

/-! PROOFS. The engine's blocks and the HYBRID command (43_hybrid.md R183, R186, R191). -/
namespace Sys2Proof.Machine

/-! ### The stream blocks -/

/-- A run block that is due is emitted (43_hybrid.md R186). -/
theorem exec_runBlock_due {s : State} {S : Snapshot} {w w' : Work} {c : Nat} (hp : s.phase = .busy S w)
    (ha : nextAct S w = .emitBlock (runHeader c)) (hw' : emitRun S c w s.draws = w') :
    ∃ t, exec (.runBlock c) s = .next t ∧ t.phase = .busy S w' := by
  have hexec := exec_ofHeader hp ha
  rw [ofHeader_runHeader, doAct_runHeader, hw'] at hexec
  exact ⟨_, hexec, rfl⟩

/-- A literal block that is due is emitted (43_hybrid.md R186). -/
theorem exec_litBlock_due {s : State} {S : Snapshot} {w w' : Work} {g : Nat} (hp : s.phase = .busy S w)
    (ha : nextAct S w = .emitBlock (litHeader g)) (hw' : emitLit S w s.draws = w') :
    ∃ t, exec (.litBlock g) s = .next t ∧ t.phase = .busy S w' := by
  have hexec := exec_ofHeader hp ha
  rw [ofHeader_litHeader, doAct_litHeader, hw'] at hexec
  exact ⟨_, hexec, rfl⟩

/-- Settles O33: RUN's one block, and HYBRID's run at the cursor, are due. -/
theorem runBlockEmits : Obligations.RunBlockEmits := by
  refine fun s S w c hp hscan => ⟨fun hcmd hc => exec_runBlock_due hp ?runDue ?runEmits,
    fun hcmd hi hr hc => exec_runBlock_due hp ?hybridDue ?hybridEmits⟩
  case runDue => simp [nextAct, hscan, hcmd, hc]
  case hybridDue => simp [nextAct, hscan, hcmd, hi, hr, hc]
  case runEmits | hybridEmits => simp [emitRun, runValue, cursorAfter, scanAfterBlock, hcmd]

/-- Settles O34: BITPACK's one block, and the block of HYBRID's span where that is at its end, are due. -/
theorem litBlockEmits : Obligations.LitBlockEmits := by
  refine fun s S w g hp => ⟨fun hcmd hscan hg => exec_litBlock_due hp ?bitpackDue ?bitpackEmits,
    fun hcmd hscan hend hg => exec_litBlock_due hp ?hybridDue ?hybridEmits⟩
  case bitpackDue => simp [nextAct, hscan, hcmd, hg]
  case hybridDue =>
    have hstop : ¬ (w.j < S.values.length ∧ runlen S.values w.j < 8) := by omega
    simp [nextAct, hscan, hcmd, hg, hstop]
  case bitpackEmits | hybridEmits => simp [emitLit, litValues, cursorAfter, scanAfterBlock, hcmd]

/-- Settles O35: each stream block asks for a BUSY engine whose next transition emits it. -/
theorem blockNotDue : Obligations.BlockNotDue := by
  refine fun s n => ⟨fun hidle => ?_, fun S w hp ha => ?_, fun S w hp ha => ?_⟩
  · have hphase : s.phase = .idle := hidle
    exact ⟨by simp [exec, execRunBlock, hphase], by simp [exec, execLitBlock, hphase]⟩
  · simp [exec, execRunBlock, hp, ha]
  · simp [exec, execLitBlock, hp, ha]

/-! ### The engine -/

/-- Settles O38: the run from START to DONE, with what it has built and used. -/
theorem engineComputesResult : Obligations.EngineComputesResult := runEngine_fresh

theorem litHeader_inj {g g' : Nat} (h : litHeader g = litHeader g') : g = g' := by
  unfold litHeader at h; omega

/-- A run block's header is no literal block's (30_encoding.md R95). -/
theorem runHeader_ne_litHeader (c g : Nat) : runHeader c ≠ litHeader g := by
  unfold runHeader litHeader; omega

/-- Where the engine emits a literal block: BITPACK of all its inputs, or HYBRID of a span, which is not empty
(43_hybrid.md R183, R186). -/
theorem nextAct_litHeader {S : Snapshot} {w : Work} {g : Nat} (hw : w.legal S)
    (h : nextAct S w = .emitBlock (litHeader g)) :
    g = numGroups (litValues S w).length ∧
      ((S.cmd = .bitpack ∧ litValues S w = S.values) ∨
        (S.cmd = .hybrid ∧ litValues S w = slice S.values w.i w.j ∧ w.i < w.j ∧ w.i < S.values.length)) := by
  rcases nextAct_cases S w 0 hw (by rw [h]; nofun) with ⟨hc, hs, -⟩ | ⟨-, -, -, -, -, ha, -⟩ | ⟨-, -, -, -, ha, -⟩ |
    ⟨-, -, -, ha, -⟩ | ⟨-, -, -, -, ha, -⟩ | ⟨hc, hs, -, hlt, ha, -⟩
  · cases hcmd : S.cmd with
    | varint => simp [nextAct, hs, hcmd] at h
    | run => simp [nextAct, hs, hcmd, runHeader_ne_litHeader] at h
    | bitpack =>
      simp only [nextAct, hs, hcmd, Act.emitBlock.injEq] at h
      simp [litValues, hcmd, litHeader_inj h]
    | hybrid => exact absurd hcmd hc
  · exact absurd (Act.emitBlock.inj (ha.symm.trans h)) (runHeader_ne_litHeader _ _)
  · cases ha.symm.trans h
  · cases ha.symm.trans h
  · cases ha.symm.trans h
  · obtain ⟨-, hspan, -⟩ := hw
    obtain ⟨-, hi, -⟩ := hspan hs
    have hg := litHeader_inj (Act.emitBlock.inj (h.symm.trans ha))
    exact ⟨by simp [litValues, hc, hg], .inr ⟨hc, by simp [litValues, hc], hlt, hi⟩⟩

/-- What validation makes sure of (60_exceptions.md R212). -/
theorem validate_ok_lengths {op : BitVec 3} {s : State} (h : validate op s = .ok) :
    op.toNat < 4 ∧ (op = 2 ∨ op = 3 → s.inLen.toNat ≤ s.capIn.toNat) ∧ (op = 2 → s.inLen.toNat ≠ 0) := by
  unfold validate validateOperands at h
  split_ifs at h with hop hbw hlen hempty
  exact ⟨Nat.not_le.1 hop, fun hread => Nat.not_lt.1 fun hlt => hlen ⟨hread, hlt⟩, fun h2 h0 => hempty ⟨h2, h0⟩⟩

/-- A live snapshot of a command that reads its input holds IN_LEN values, at most N_MAX, and of BITPACK at least one
(10_state.md R35, 60_exceptions.md R212). -/
theorem Snapshot.live.values_length {S : Snapshot} {s : State} (h : S.live s) (hc : S.cmd = .bitpack ∨ S.cmd = .hybrid) :
    S.values.length ≤ s.capIn.toNat ∧ (S.cmd = .bitpack → S.values.length ≠ 0) := by
  obtain ⟨hv, hcmd, -, -, -, -, hlen, -, -⟩ := h
  obtain ⟨hop, hmax, hmin⟩ := validate_ok_lengths hv
  have hbitpack : ∀ op : BitVec 3, commandOf op = .bitpack → op = 2 := by decide
  have hhybrid : ∀ op : BitVec 3, op.toNat < 4 → commandOf op = .hybrid → op = 3 := by decide
  have hlength : S.values.length = s.inLen.toNat := by
    rw [Snapshot.values, List.length_map, hlen]
    rcases hc with hc | hc <;> rw [hc, inputCount]
  rw [hlength]
  refine ⟨hmax ?_, fun hb => hmin (hbitpack _ (hcmd.symm.trans hb))⟩
  exact hc.imp (fun hb => hbitpack _ (hcmd.symm.trans hb)) (fun hh => hhybrid _ hop (hcmd.symm.trans hh))

/-- Literals that are some, but not more than the largest N_MAX, make 1 to 2048 groups (42_bitpack.md R151). -/
theorem numGroups_bounds {len : Nat} (hpos : len ≠ 0) (hmax : len ≤ 16384) : 1 ≤ numGroups len ∧ numGroups len ≤ 2048 := by
  unfold numGroups ceilDiv Config.group
  omega

/-- Settles O40: BITPACK was validated to have inputs, and a span of HYBRID has absorbed its first run. -/
theorem spanNeverEmpty : Obligations.SpanNeverEmpty := by
  intro s S w g hinv hp ha
  obtain ⟨-, hcap, -⟩ := hinv.caps
  obtain ⟨hlive, hw⟩ := hinv.engine S w hp
  obtain ⟨hg, hlit⟩ := nextAct_litHeader hw ha
  have hlen : (litValues S w).length ≠ 0 ∧ (litValues S w).length ≤ 16384 := by
    rcases hlit with ⟨hc, hl⟩ | ⟨hc, hl, hij, hi⟩ <;> rw [hl]
    · obtain ⟨hmax, hmin⟩ := hlive.values_length (.inl hc)
      exact ⟨hmin hc, hmax.trans hcap⟩
    · obtain ⟨hmax, -⟩ := hlive.values_length (.inr hc)
      rw [slice, List.length_take, List.length_drop]
      omega
  rw [hg]
  exact ⟨mt (congrArg List.length) hlen.1, numGroups_bounds hlen.1 hlen.2⟩

/-! ### The HYBRID command -/

/-- HYBRID of a legal width and at most N_MAX inputs passes validation (60_exceptions.md R212). -/
theorem validate_hybrid {s : State} (hbw : s.bitWidth.toNat ≤ 32) (hlen : s.inLen.toNat ≤ s.capIn.toNat) :
    validate 3 s = .ok := by
  simp [validate, validateOperands, Nat.not_lt.2 hbw, Nat.not_lt.2 hlen]

/-- HYBRID that passes validation launches the engine from every IDLE state (30_encoding.md R93). -/
theorem exec_hybrid_idle {s : State} (hidle : s.idle) (hv : validate 3 s = .ok) :
    exec .hybrid s = .next (s.launch 3 (snapshot .hybrid s) (4 * s.inLen.toNat)) :=
  congrArg Host.Outcome.next (start_valid (s.busy_of_phase_idle hidle) hv)

/-- HYBRID's result of written inputs is `Hybrid` of them (43_hybrid.md R191). -/
theorem result_hybrid {s : State} {ls : List Word} (k : Nat) (h : s.inputIs ls) :
    result (snapshot .hybrid s) k = hybrid k (ls.map fun x => x.toNat) s.bitWidth.toNat := by
  obtain ⟨hin, -⟩ := snapshot_inputIs (cmd := .hybrid) h rfl
  rw [result, snapshot_cmd, snapshot_bw, Snapshot.values, hin]

/-- Settles O28: validation turns HYBRID away or lets it launch, and its completion writes `Hybrid` of its inputs. -/
theorem hybridResult : Obligations.HybridResult := by
  refine ⟨by decide, fun s hidle => ⟨fun ls hbw hin hcap => ?written, fun hbw => ?badBw, fun hbw hlen => ?badLen,
    fun k hbw hcap hk hnone => ?unwritten⟩⟩
  case written =>
    have ⟨hlen, _⟩ := hin
    obtain ⟨-, hwritten⟩ := snapshot_inputIs (cmd := .hybrid) hin rfl
    obtain ⟨u, hu, hcomp, hfaults⟩ := complete_launch_result s 3 (snapshot .hybrid s) (4 * s.inLen.toNat)
    rw [result_hybrid _ hin] at hcomp
    rw [hwritten] at hfaults
    exact ⟨_, u, exec_hybrid_idle hidle (validate_hybrid hbw (hlen ▸ hcap)), rfl, hu, hcomp, hfaults⟩
  case badBw => exact congrArg _ (start_error hidle (validate_badBw (.inr (.inr rfl)) hbw) nofun)
  case badLen => exact congrArg _ (start_error hidle (validate_badLen (.inr rfl) hbw hlen) nofun)
  case unwritten =>
    obtain ⟨u, hu, hcomp, hfaults⟩ := complete_launch_result s 3 (snapshot .hybrid s) (4 * s.inLen.toNat)
    rw [snapshot_unwritten rfl hk hnone] at hfaults
    exact ⟨_, u, exec_hybrid_idle hidle (validate_hybrid hbw hcap), hu, hcomp.idle, hcomp.done, hfaults⟩

end Sys2Proof.Machine

/-! PROOFS. Validation, the code a START reports, and the reserved OP codes (60_exceptions.md). -/
namespace Sys2Proof.Machine

/-- A reserved OP is turned away before anything else is looked at (60_exceptions.md R212). -/
theorem validate_badOp {op : BitVec 3} {s : State} (hop : 4 ≤ op.toNat) : validate op s = .badOp := by
  rw [validate, validateOperands, if_pos hop]

/-- An OP code is a command's, or it is a reserved one and no command's (30_encoding.md R91). -/
theorem op_command_or_reserved : ∀ op : BitVec 3,
    op = 0 ∨ op = 1 ∨ op = 2 ∨ op = 3 ∨ (4 ≤ op.toNat ∧ op ≠ 0 ∧ op ≠ 1 ∧ op ≠ 2 ∧ op ≠ 3) := by decide

/-- A START of a reserved OP in an IDLE block stores the OP and reports BAD_OP (60_exceptions.md R213). -/
theorem start_reserved {op : BitVec 3} {s : State} (hidle : s.idle) (hop : 4 ≤ op.toNat) :
    start op s = { s with op := op, done := true, err := .badOp, outLen := 0 } :=
  start_error hidle (validate_badOp hop) nofun

/-- Settles O24: per OP, along the width and then the length, the code of each case is known, and one clause has it. -/
theorem validationOrder : Obligations.ValidationOrder := by
  intro op s
  have hwidth := le_or_gt s.bitWidth.toNat 32
  have hlength := le_or_gt s.inLen.toNat s.capIn.toNat
  rcases op_command_or_reserved op with rfl | rfl | rfl | rfl | ⟨hop, h0, h1, h2, h3⟩
  · rw [validate_varint]
    simp
  · rcases hwidth with hbw | hbw
    · rw [validate_run hbw]
      simp [hbw]
    · rw [validate_badBw (.inl rfl) hbw]
      simp [hbw]
  · rcases hwidth with hbw | hbw
    · rcases hlength with hlen | hlen
      · rcases Nat.eq_zero_or_pos s.inLen.toNat with hzero | hpos
        · rw [validate_bitpack_empty hbw hzero]
          simp [hbw, hzero]
        · rw [validate_bitpack hbw hpos hlen]
          simp [hbw, hlen, hpos.ne', Nat.succ_le_of_lt hpos]
      · rw [validate_badLen (.inl rfl) hbw hlen]
        simp [hbw, hlen, Nat.ne_zero_of_lt hlen]
    · rw [validate_badBw (.inr (.inl rfl)) hbw]
      simp [hbw]
  · rcases hwidth with hbw | hbw
    · rcases hlength with hlen | hlen
      · rw [validate_hybrid hbw hlen]
        simp [hbw, hlen]
      · rw [validate_badLen (.inr rfl) hbw hlen]
        simp [hbw, hlen]
    · rw [validate_badBw (.inr (.inr rfl)) hbw]
      simp [hbw]
  · rw [validate_badOp hop]
    simp only [h0, h1, h2, h3, hop]
    simp

/-- Settles O29: each reserved code is at least 4, so its START is the report of BAD_OP. -/
theorem reservedResult : Obligations.ReservedResult := by
  intro s hidle
  refine ⟨?_, ?_, ?_, ?_⟩ <;> exact congrArg Host.Outcome.next (start_reserved hidle (by decide))

end Sys2Proof.Machine

/-! PROOFS. Reset, the invariant there, and a command word while BUSY (70_reset_and_hazards.md). -/
namespace Sys2Proof.Machine

/-! ### A command word while BUSY -/

/-- A START is ignored while BUSY (70_reset_and_hazards.md R246). -/
theorem start_busy {s : State} (hb : s.busy = true) (op : BitVec 3) : start op s = s := if_pos hb

/-- Every command word is ignored while BUSY (70_reset_and_hazards.md R246, 20_memory.md R69). -/
theorem exec_command_busy {i : Instr} {s : State} (hi : i.space = .command) (hb : s.busy = true) :
    exec i s = .next s := by
  rcases exec_command hi s with ⟨op, -, he⟩ | ⟨-, op, he⟩
  · rw [he, if_pos hb]
  · rw [he, start_busy hb]

/-- Settles O31: the nine are the command words. -/
theorem startWhileBusyIgnored : Obligations.StartWhileBusyIgnored := by
  intro s hb
  have ignored {i : Instr} (hi : i.space = .command) : exec i s = .next s := exec_command_busy hi hb
  exact ⟨ignored rfl, ignored rfl, ignored rfl, ignored rfl, ignored rfl, ignored rfl, ignored rfl, ignored rfl,
    fun _ => ignored rfl⟩

/-! ### Reset -/

/-- STATUS reads 0 after reset (70_reset_and_hazards.md R240). -/
@[simp] theorem statusWord_toReset (s : State) : statusWord s.toReset = 0 := rfl

/-- Where no address is listed no byte is written. -/
@[simp] theorem Memory.read_nil (a : Nat) : Memory.read [] a = none := rfl

/-- Resetting the machine right after reset changes nothing. -/
theorem State.toReset_reset : State.reset.toReset = State.reset := rfl

/-- A step with reset pending resets the block, the reset no longer pending (70_reset_and_hazards.md R241). -/
theorem step_reset {s : State} {rest : List Event} (h : s.pending = .reset :: rest) :
    step s = .next (s.withPending rest).toReset := step_pending h

/-- Settles O49: the step is `State.toReset`, whose fields are known, and `State.reset` is its own `State.toReset`. -/
theorem resetEffect : Obligations.ResetEffect := by
  refine ⟨fun s rest hpend => ⟨_, step_reset hpend, ?_⟩, ?_⟩
  · simp
  · rw [← State.toReset_reset]
    simp

/-! ### The invariant at reset -/

/-- A block with legal capacities meets the invariant right after reset: nothing is running and nothing is written. -/
theorem State.inv_resetWith {capIn capOut : Word} (hcaps : (State.resetWith capIn capOut).capsLegal) :
    (State.resetWith capIn capOut).Inv where
  caps := hcaps
  status := ⟨nofun, fun _ => rfl⟩
  outLen := Nat.zero_le _
  mem := ⟨List.Pairwise.nil, nofun⟩
  words := fun _ _ _ _ => rfl
  engine := State.engineLegal_of_idle rfl

/-- N_MAX and OUT_MAX are legal, whatever the seeds (00_scope.md R7). -/
theorem State.capsLegal_reset : State.reset.capsLegal := by
  obtain ⟨hin, hout, -⟩ := capacitiesConstant
  rw [State.capsLegal, hin, hout, Config.nMax, Config.outMax]
  omega

/-- Settles O50: the capacities at reset are legal, and the rest of the invariant holds of any block right after reset. -/
theorem invariantAtReset : Obligations.InvariantAtReset := State.inv_resetWith State.capsLegal_reset

end Sys2Proof.Machine
